-- ==== Sys2Proof/Word.lean ====
section
/-! DEFINITION. The words of the block: bits, nibbles, bytes and the request word (rules R9, R70, R71). -/

namespace Sys2Proof

/-- One bit of a frame, a flag or a field (rule R9). -/
abbrev Bit := BitVec 1

/-- Half a byte, what the LCD takes at a time (00_scope.md, glossary). -/
abbrev Nibble := BitVec 4

/-- One 8-bit value: an operand, a frame, a count (rules R51, R71). -/
abbrev Byte := BitVec 8

/-- A request word, REQ_W = 24 bits wide (rules R5, R70). -/
abbrev ReqWord := BitVec 24

end Sys2Proof
end

