-- ==== Sys2Proof/Syntax.lean ====
section
/-! DEFINITION. The seven requests of opcode_table.json as one inductive (rules R72, R74), and the lines of the
assembler syntax of rule R76, whose operands need not fit their fields. -/

namespace Sys2Proof

/-- The font selector FNT of BEGIN (rule R70): small is 5x8 dots, large is 5x10. -/
inductive Font where
  | small
  | large
  deriving DecidableEq, Repr

/-- FNT as the bit of the request word: 0 small, 1 large (rule R70). -/
def Font.bit : Font → Bit
  | .small => 0
  | .large => 1

/-- The request whose FNT bit is `b` asks for this font (rule R74). -/
def Font.ofBit (b : Bit) : Font :=
  if b = 1 then .large else .small

/-- One constructor per row of opcode_table.json. Each operand has the width of its field (rules R71, R74), so every
term is a request some word presents. -/
inductive Instr where
  /-- INITIALIZE (rule R100) -/
  | initialise
  /-- BEGIN (rule R101): `cols` = A, `lines` = B, `font` = FNT -/
  | beginLcd (cols lines : Byte) (font : Font)
  /-- INIT_NIBBLE (rule R132); the whole operand is kept, its low nibble is sent -/
  | initNibble (value : Byte)
  /-- COMMAND (rule R133) -/
  | command (value : Byte)
  /-- WRITE_CHAR (rule R135) -/
  | writeChar (value : Byte)
  /-- BACKLIGHT_OFF (rule R160) -/
  | backlightOff
  /-- BACKLIGHT_ON (rule R161) -/
  | backlightOn
  deriving DecidableEq, Repr

/-- One line of the assembler syntax of rule R76, its immediates numbers of any size. An absent font is `none`. -/
inductive AsmLine where
  | initialise
  | beginLcd (cols lines : Nat) (font : Option Font)
  | initNibble (imm : Nat)
  | command (imm : Nat)
  | writeChar (imm : Nat)
  | backlightOff
  | backlightOn
  deriving DecidableEq, Repr

end Sys2Proof
end

