-- ==== Sys2Proof/WellFormed.lean ====
section
/-! DEFINITION. When a line of the assembler syntax is a request (rule R76): each operand fits its field of the request
word (rule R71). A term of Instr is well formed by its types, so no check is left to make on it. -/

namespace Sys2Proof

/-- A number fits an 8-bit field of the request word (rule R71: 0 to 255). -/
def fitsField (n : Nat) : Bool := decide (n < 256)

/-- Rule R76: an operand that does not fit its field is an assembly error. -/
def AsmLine.wellFormed : AsmLine → Bool
  | .initialise => true
  | .beginLcd cols lines _ => fitsField cols && fitsField lines
  | .initNibble imm => fitsField imm
  | .command imm => fitsField imm
  | .writeChar imm => fitsField imm
  | .backlightOff => true
  | .backlightOn => true

/-- The request a line stands for, each operand taken into its field. -/
def AsmLine.request : AsmLine → Instr
  | .initialise => .initialise
  | .beginLcd cols lines font => .beginLcd (BitVec.ofNat 8 cols) (BitVec.ofNat 8 lines) (font.getD .small)
  | .initNibble imm => .initNibble (BitVec.ofNat 8 imm)
  | .command imm => .command (BitVec.ofNat 8 imm)
  | .writeChar imm => .writeChar (BitVec.ofNat 8 imm)
  | .backlightOff => .backlightOff
  | .backlightOn => .backlightOn

/-- The request of a line, where the line is one: "not a request, and no word" otherwise (rule R76; the default font is
small, rule R74). -/
def AsmLine.toInstr? (l : AsmLine) : Option Instr :=
  if l.wellFormed then some l.request else none

end Sys2Proof
end

