-- ==== Sys2Proof/Decode.lean ====
section
/-! DEFINITION. The decoder of the request word (rules R70 to R75), total, rejecting each reserved word by the clause of
rule R73 it falls under, and the encoder written from the same table. -/

namespace Sys2Proof

/-- OP, `w[23:20]` (rule R70). -/
def fieldOp (w : ReqWord) : BitVec 4 := w.extractLsb' 20 4

/-- FNT, `w[19]` (rule R70). -/
def fieldFnt (w : ReqWord) : Bit := w.extractLsb' 19 1

/-- RSV, `w[18:16]` (rule R70). -/
def fieldRsv (w : ReqWord) : BitVec 3 := w.extractLsb' 16 3

/-- A, `w[15:8]` (rule R70). -/
def fieldA (w : ReqWord) : Byte := w.extractLsb' 8 8

/-- B, `w[7:0]` (rule R70). -/
def fieldB (w : ReqWord) : Byte := w.extractLsb' 0 8

/-- Why a word is reserved: the clauses (a) to (e) of rule R73, the first that holds. -/
inductive ReservedBy where
  /-- (a) OP is 0x7 to 0xF -/
  | opcode
  /-- (b) RSV is not 0 -/
  | rsv
  /-- (c) OP is not BEGIN's and FNT is not 0 -/
  | fnt
  /-- (d) OP is not BEGIN's and A is not 0 -/
  | operandA
  /-- (e) the request takes no value and B is not 0 -/
  | operandB
  deriving DecidableEq, Repr

/-- The first clause of rule R73 under which a word with these fields is reserved, if any. -/
def reservedBy (w : ReqWord) : Option ReservedBy :=
  if 7 ≤ (fieldOp w).toNat then some .opcode
  else if fieldRsv w ≠ 0 then some .rsv
  else if fieldOp w ≠ 1 ∧ fieldFnt w ≠ 0 then some .fnt
  else if fieldOp w ≠ 1 ∧ fieldA w ≠ 0 then some .operandA
  else if (fieldOp w = 0 ∨ fieldOp w = 5 ∨ fieldOp w = 6) ∧ fieldB w ≠ 0 then some .operandB
  else none

/-- The operation OP selects, with its operands assembled (rules R72, R74); `none` for the reserved values of OP. -/
def operation (op : BitVec 4) (fnt : Bit) (a b : Byte) : Option Instr :=
  match op.toNat with
  | 0 => some .initialise
  | 1 => some (.beginLcd a b (Font.ofBit fnt))
  | 2 => some (.initNibble b)
  | 3 => some (.command b)
  | 4 => some (.writeChar b)
  | 5 => some .backlightOff
  | 6 => some .backlightOn
  | _ => none

/-- Rule R75: every word is exactly one of the seven operations, or reserved. -/
def decode (w : ReqWord) : Except ReservedBy Instr :=
  match reservedBy w with
  | some r => .error r
  | none =>
    match operation (fieldOp w) (fieldFnt w) (fieldA w) (fieldB w) with
    | some i => .ok i
    | none => .error .opcode

/-- A REQ word from its fields, RSV = 0 (rule R70). -/
def reqWord (op : BitVec 4) (fnt : Bit) (a b : Byte) : ReqWord :=
  (op ++ fnt ++ (0 : BitVec 3) ++ a ++ b : BitVec (4 + 1 + 3 + 8 + 8))

/-- The word that presents a request (rule R72). -/
def encode : Instr → ReqWord
  | .initialise => reqWord 0x0 0 0 0
  | .beginLcd cols lines font => reqWord 0x1 font.bit cols lines
  | .initNibble value => reqWord 0x2 0 0 value
  | .command value => reqWord 0x3 0 0 value
  | .writeChar value => reqWord 0x4 0 0 value
  | .backlightOff => reqWord 0x5 0 0 0
  | .backlightOn => reqWord 0x6 0 0 0

/-- The instruction the decoder reads from a request whose bits are `w`, numbered as opcode_table.json numbers them:
`w` is the word itself, of which `nbits` bits are given and the others are 0. A request is 24 bits (rule R70), so a
number with a bit above them is none. -/
def decodeTableWord (nbits w : Nat) : Option Instr :=
  let v := w % 2 ^ nbits
  if v < 2 ^ 24 then
    match decode (BitVec.ofNat 24 v) with
    | .ok i => some i
    | .error _ => none
  else none

end Sys2Proof
end

