-- ==== Sys2Proof/Config.lean ====
section
/-! DEFINITION. What an implementation fixes (rule R5) and the one free value the spec leaves to a draw (rule R134). -/

namespace Sys2Proof

/-- The parameters of rule R5 that an implementation may choose within the spec's bounds. -/
structure Params where
  /-- BL_RESET, the backlight shadow after reset (decision D4) -/
  blReset : Bit
  /-- T_INIT1, microseconds, after the first 0011b nibble -/
  tInit1 : Nat
  /-- T_INIT2, after the second 0011b nibble -/
  tInit2 : Nat
  /-- T_INIT3, after the third 0011b nibble -/
  tInit3 : Nat
  /-- T_INIT4, after the 0010b nibble -/
  tInit4 : Nat
  /-- T_EN, the enable-high hold -/
  tEn : Nat
  /-- T_CLEAR, the extra wait after CLEAR-DISPLAY -/
  tClear : Nat
  deriving DecidableEq, Repr

/-- The values of rule R5's table. DESIGN CHOICE of the spec (decisions D4, D8, D9), unsafe where an implementation has
other values: log entries 9 and 10. -/
def Params.default : Params where
  blReset := 0
  tInit1 := 4500
  tInit2 := 150
  tInit3 := 150
  tInit4 := 150
  tEn := 1
  tClear := 3000

/-- The source's bounds on them (rule R5, rules R194, R196, R198). -/
abbrev Params.Legal (p : Params) : Prop :=
  4100 < p.tInit1 ∧ 100 < p.tInit2 ∧ 100 < p.tInit3 ∧ 100 < p.tInit4 ∧ 1 ≤ p.tEn ∧ 3000 ≤ p.tClear

/-- N_POR, the number of power-on waits (rule R5). -/
def Config.nPor : Nat := 200

/-- T_POR_STEP, microseconds of each of them (rule R5). -/
def Config.tPorStep : Nat := 1000

/-- T_SETTLE, microseconds at the end of every transmission (rule R5). -/
def Config.tSettle : Nat := 60

/-- WIRING (rule R5): the identifiers of the three lines. -/
structure Wiring where
  dataPin : Nat
  clockPin : Nat
  latchPin : Nat
  deriving DecidableEq, Repr, Inhabited

/-- The wiring of this block, "set once at construction": a constant the spec gives no value for, so none is known here
(log entry 14; safe). -/
opaque Config.wiring : Wiring

/-- TICK_HZ (rule R182, decision D34: OPEN), a constant without a value (log entry 14; safe). -/
opaque Config.tickHz : Nat

/-- Free value (rule R134, 93_implementation_defined.md I6): whether the first frame after power-on, sent while `q` is
unwritten, is a falling edge of E. A draw; both are admitted (log entry 6; safe). -/
opaque Config.powerOnLatch : Bool

end Sys2Proof
end

