-- ==== Sys2Proof/Machine/State.lean ====
section
/-! DEFINITION. The state of the block (rule R20), its model faults (rule R170), its observation (rule R8), the moves of
its host (rule R181), and the state after power-on and reset (rule R40). -/

namespace Sys2Proof.Machine

/-- A display-control shadow element, as UNWRITTEN_SHADOW records it (rule R170). -/
inductive ShadowName where
  | d
  | c
  | b
  deriving DecidableEq, Repr

/-- The four model faults of rule R170, each with the values it records. The hardware reports none of them; stopping is
safe (the hardware may carry on). -/
inductive Fault where
  /-- RESERVED_REQUEST, raised by the decoder on a reserved word (rule R172). Safe. -/
  | reservedRequest (word : ReqWord)
  /-- NOT_CONFIGURED, raised by every request but INITIALIZE while `pins_cfg = 0` (rule R171). Safe. -/
  | notConfigured (word : ReqWord)
  /-- UNWRITTEN_SHADOW, raised by BACKLIGHT_OFF and BACKLIGHT_ON on reading ⊥ (rule R173). Safe. -/
  | unwrittenShadow (word : ReqWord) (element : ShadowName)
  /-- BAD_GEOMETRY, raised by BEGIN with `lines = 0` (rule R174). Safe. -/
  | badGeometry (word : ReqWord)
  deriving DecidableEq, Repr

/-- Why the model gives no meaning. -/
inductive Refusal where
  /-- Raised by an arm of `exec` for an instruction that has no meaning yet; no arm does. Safe. -/
  | notModelled (mnemonic : String)
  deriving DecidableEq, Repr

/-- The observable events of a run (rule R8). -/
inductive Event where
  /-- one completed SendFrame, after which the outputs show the frame -/
  | frame (f : Byte)
  /-- at least this many microseconds pass, the lines unchanged -/
  | delay (us : Nat)
  /-- the block finished a request and returns the count -/
  | done (n : Byte)
  deriving DecidableEq, Repr

/-- The sequencer position (rule R29). -/
inductive Seq where
  | idle
  /-- the request being executed and the index of its next action -/
  | active (req : Instr) (k : Nat)
  deriving DecidableEq, Repr

/-- What the host does at the ports next (rule R181; log entries 2 and 3). -/
inductive HostMove where
  /-- present this word, hold it until it is accepted, and let the request run to its end (rule R60) -/
  | request (w : ReqWord)
  /-- present this word, hold it until it is accepted, and keep reset at hand: the request then advances one action a
  step (rule R106), so that a reset can fall between any two (rule R190) -/
  | requestStepwise (w : ReqWord)
  /-- let one transition of the block pass -/
  | pass
  /-- raise `rst` -/
  | assertReset
  /-- lower `rst` -/
  | releaseReset
  deriving DecidableEq, Repr

/-- What is left of a run that a reset ended: its events, where the sequencer stood, and the fault it had recorded
(rules R8, R175, R190). -/
structure EndedRun where
  trace : List Event
  seq : Seq
  fault : Option Fault
  deriving DecidableEq, Repr

/-- The state. The elements of rule R20 first, under the spec's names; `none` in a shadow, the geometry or `q` is the
spec's own ⊥ (rule R11). -/
structure State where
  /-- the implementation's parameters (rule R5); no step writes them -/
  cfg : Params
  /-- `pins_cfg`: the three lines are outputs (rule R21) -/
  pinsCfg : Bool
  /-- `busy`: a request is executing (rule R22) -/
  busy : Bool
  /-- `BL`: the backlight shadow flag (rule R23) -/
  bl : Bit
  /-- `N`: two-line mode (rule R24) -/
  shadowN : Option Bit
  /-- `F`: 5x10 font (rule R24) -/
  shadowF : Option Bit
  /-- `D`: display on (rule R25) -/
  shadowD : Option Bit
  /-- `C`: cursor on (rule R25) -/
  shadowC : Option Bit
  /-- `B`: blink on (rule R25) -/
  shadowB : Option Bit
  /-- `ID`: entry direction, 1 is left to right (rule R26) -/
  shadowID : Option Bit
  /-- `SH`: shift on write (rule R26) -/
  shadowSH : Option Bit
  /-- `cols`: the column count given to BEGIN (rule R27) -/
  cols : Option Byte
  /-- `lines`: the logical line count given to BEGIN (rule R27) -/
  lines : Option Byte
  /-- `q`: what the shift register's outputs show (rule R28) -/
  q : Option Byte
  /-- `seq`: the sequencer position (rule R29) -/
  seq : Seq
  /-- `fault`: the sticky model fault (rule R175) -/
  fault : Option Fault
  /-- the level of the input `rst` (rule R181) -/
  rst : Bool
  /-- the output `done`, high for the transition that ended a request (rule R181; log entry 7) -/
  done : Bool
  /-- the output `done_count`, n of the last `Done(n)` (rule R181; log entry 7) -/
  doneCount : Byte
  /-- the events of this run, oldest first (rule R8; the model's own, log entry 8) -/
  trace : List Event
  /-- the runs that resets ended, oldest first (the model's own, log entry 8) -/
  ended : List EndedRun
  /-- the host's moves to come (the model's own, log entry 3) -/
  host : List HostMove
  deriving DecidableEq, Repr

/-- Rule R40 after power-on and reset, for a block with these parameters: `q` is ⊥, everything else as the table says.
The outputs `done` and `done_count` start at 0 (DESIGN CHOICE, log entry 7). -/
def State.powerOn (p : Params) : State where
  cfg := p
  pinsCfg := false
  busy := false
  bl := p.blReset
  shadowN := none
  shadowF := none
  shadowD := none
  shadowC := none
  shadowB := none
  shadowID := none
  shadowSH := none
  cols := none
  lines := none
  q := none
  seq := .idle
  fault := none
  rst := false
  done := false
  doneCount := 0
  trace := []
  ended := []
  host := []

/-- The machine right after power-on and reset, with the default parameters of rule R5 (rule R40). -/
def State.reset : State := State.powerOn Params.default

end Sys2Proof.Machine
end

