-- ==== Sys2Proof/Machine/Flags.lean ====
section
/-! DEFINITION. The HD44780 command bytes and the flags in them (rule R90). PRESUMED by the spec from general knowledge
(decision D15; log entry 11). -/

namespace Sys2Proof.Machine

/-- CLEAR-DISPLAY (rule R90). -/
def clearDisplayByte : Byte := 0x01

/-- ENTRY-MODE: `0x04 | ID<<1 | SH` (rule R90). -/
def entryModeByte (dir shift : Bit) : Byte :=
  0x04 ||| dir.setWidth 8 <<< 1 ||| shift.setWidth 8

/-- DISPLAY-CONTROL: `0x08 | D<<2 | C<<1 | B` (rule R90). -/
def displayControlByte (display cursor blink : Bit) : Byte :=
  0x08 ||| display.setWidth 8 <<< 2 ||| cursor.setWidth 8 <<< 1 ||| blink.setWidth 8

/-- FUNCTION-SET with DL = 0: `0x20 | N<<3 | F<<2` (rule R90). -/
def functionSetByte (twoLine font : Bit) : Byte :=
  0x20 ||| twoLine.setWidth 8 <<< 3 ||| font.setWidth 8 <<< 2

/-- The raw nibble of BEGIN steps 2, 3 and 4, as the operand of Transmit (rule R91). -/
def bringUpByte : Byte := 0x03

/-- The raw nibble of BEGIN step 5, which selects 4-bit mode (rule R91). -/
def fourBitByte : Byte := 0x02

end Sys2Proof.Machine
end

