-- ==== Sys2Proof/Machine/Operands.lean ====
section
/-! DEFINITION. Operand forms: the nibbles of a value, register-select, the assembly of a frame (rules R53, R80 to R87), and
the line mode and font that BEGIN resolves (rule R102). -/

namespace Sys2Proof.Machine

/-- The three modes of Transmit (rule R131). -/
inductive Mode where
  | init
  | command
  | character
  deriving DecidableEq, Repr

/-- `value[7:4]` (rule R82). -/
def highNibble (value : Byte) : Nibble := value.extractLsb' 4 4

/-- `value[3:0]` (rule R82). -/
def lowNibble (value : Byte) : Nibble := value.extractLsb' 0 4

/-- The nibble of each slot, in order: one slot in mode INIT, two otherwise, high first (rules R53, R87; conflict C1). -/
def slotNibbles (value : Byte) : Mode → List Nibble
  | .init => [lowNibble value]
  | .command => [highNibble value, lowNibble value]
  | .character => [highNibble value, lowNibble value]

/-- Register-select: 1 exactly in mode CHARACTER (rule R83). -/
def registerSelect : Mode → Bit
  | .init => 0
  | .command => 0
  | .character => 1

/-- `Frame(nib, rs, bl, en) = (nib << 4) | (en << 3) | (bl << 2) | (rs << 1)` (rule R80). -/
def assembleFrame (nib : Nibble) (rs bl en : Bit) : Byte :=
  nib.setWidth 8 <<< 4 ||| en.setWidth 8 <<< 3 ||| bl.setWidth 8 <<< 2 ||| rs.setWidth 8 <<< 1

/-- The same frame with bit 3, enable, cleared (rule R131). -/
def enableLow (f : Byte) : Byte := f &&& 0xF7

/-- The resolved line mode N: two-line from two lines on (rule R102). -/
def lineMode (lines : Byte) : Bit :=
  if 2 ≤ lines.toNat then 1 else 0

/-- The resolved font F: large only where large was asked for and there is one line (rule R102). -/
def resolvedFont (font : Font) (lines : Byte) : Bit :=
  if font = .large ∧ lines = 1 then 1 else 0

end Sys2Proof.Machine
end

