-- ==== Sys2Proof/Machine/Ops.lean ====
section
/-! DEFINITION. The named operations of the block: one action of the sequencer (rules R10, R29, R130), the action list of a
transmission (rule R131), acceptance and the serving of a request (rules R60, R181), taking a model fault (rule R175), the
one way out of it, reset (rules R179, R190), and the checks the requests share (rules R171, R173, R178). -/

namespace Sys2Proof.Machine

/-- An internal state write `Set(x, v)` (rule R29): one element and its value. -/
inductive Write where
  | pinsCfg
  | bl (v : Bit)
  | shadowN (v : Bit)
  | shadowF (v : Bit)
  | shadowD (v : Bit)
  | shadowC (v : Bit)
  | shadowB (v : Bit)
  | shadowID (v : Bit)
  | shadowSH (v : Bit)
  | cols (v : Byte)
  | lines (v : Byte)
  deriving DecidableEq, Repr

/-- One action of a request's list (rule R29). -/
inductive Action where
  | set (w : Write)
  | sendFrame (f : Byte)
  | wait (us : Nat)
  | done (n : Byte)
  deriving DecidableEq, Repr

/-- The code of a model fault (rule R170's table). -/
def Fault.code : Fault → Nat
  | .reservedRequest _ => 1
  | .notConfigured _ => 2
  | .unwrittenShadow _ _ => 3
  | .badGeometry _ => 4

/-- `req_ready`: not busy and not in reset (rule R181). -/
def State.ready (s : State) : Bool := !s.busy && !s.rst

/-- Whether the block drives DATA, CLK and LATCH; they are undriven otherwise (rule R21). -/
def State.linesDriven (s : State) : Bool := s.pinsCfg

/-- The write a `Set` makes (rule R29). -/
def State.write (w : Write) (s : State) : State :=
  match w with
  | .pinsCfg => { s with pinsCfg := true }
  | .bl v => { s with bl := v }
  | .shadowN v => { s with shadowN := some v }
  | .shadowF v => { s with shadowF := some v }
  | .shadowD v => { s with shadowD := some v }
  | .shadowC v => { s with shadowC := some v }
  | .shadowB v => { s with shadowB := some v }
  | .shadowID v => { s with shadowID := some v }
  | .shadowSH v => { s with shadowSH := some v }
  | .cols v => { s with cols := some v }
  | .lines v => { s with lines := some v }

/-- `k <- k + 1` (rule R29). -/
def Seq.next : Seq → Seq
  | .idle => .idle
  | .active i k => .active i (k + 1)

/-- One action (rules R10, R29, R130): its write or its event, and the sequencer's move. `Done(n)` ends the request. -/
def State.perform (s : State) (a : Action) : State :=
  match a with
  | .set w => { s.write w with seq := s.seq.next }
  | .sendFrame f => { s with q := some f, trace := s.trace ++ [.frame f], seq := s.seq.next }
  | .wait us => { s with trace := s.trace ++ [.delay us], seq := s.seq.next }
  | .done n =>
    { s with trace := s.trace ++ [.done n], seq := .idle, busy := false, done := true, doneCount := n }

/-- A list of actions in order (rule R106). -/
def State.performAll (s : State) : List Action → State
  | [] => s
  | a :: rest => (s.perform a).performAll rest

/-- Acceptance: `busy <- 1`, the request captured, `seq <- (req, 0)` (rules R29, R181). The pulse on `done` is over. -/
def State.accept (s : State) (i : Instr) : State :=
  { s with busy := true, seq := .active i 0, done := false }

/-- Taking a model fault (rule R175): acceptance has set `busy`, which stays 1; nothing else of the request happens, no event
and no write. No request is being executed, so `seq` stays IDLE (DEDUCED, log entry 4). -/
def State.raise (s : State) (f : Fault) : State :=
  { s with busy := true, seq := .idle, fault := some f, done := false }

/-- Reset (rules R40, R190, R191): every element at its value of rule R40; `q` keeps its frame; the run ends and a new one
starts. No `Done` is emitted, and `done_count` keeps n of the last one (log entries 7 and 8). -/
def State.takeReset (s : State) : State :=
  { s with
    pinsCfg := false
    busy := false
    bl := s.cfg.blReset
    shadowN := none
    shadowF := none
    shadowD := none
    shadowC := none
    shadowB := none
    shadowID := none
    shadowSH := none
    cols := none
    lines := none
    seq := .idle
    fault := none
    rst := true
    done := false
    trace := []
    ended := s.ended ++ [⟨s.trace, s.seq, s.fault⟩] }

/-- One slot of a transmission: the frame with enable high, the hold, the frame with enable low (rules R85, R131). -/
def slotActions (tEn : Nat) (bl rs : Bit) (nib : Nibble) : List Action :=
  [.sendFrame (assembleFrame nib rs bl 1), .wait tEn, .sendFrame (enableLow (assembleFrame nib rs bl 1))]

/-- `Transmit(value, mode)` while the backlight shadow is `bl` (rules R84, R131). -/
def transmitActions (p : Params) (bl : Bit) (value : Byte) (mode : Mode) : List Action :=
  (slotNibbles value mode).flatMap (slotActions p.tEn bl (registerSelect mode)) ++ [.wait Config.tSettle]

/-- The check every request but INITIALIZE makes first (rules R171, R178). -/
def configuredCheck (i : Instr) (s : State) : Option Fault :=
  if s.pinsCfg then none else some (.notConfigured (encode i))

/-- Two checks, the first that fails giving the fault (rule R178). -/
def firstFault (a b : Option Fault) : Option Fault :=
  match a with
  | some f => some f
  | none => b

/-- Reading `D`, `C` and `B` in order: the first that holds ⊥ faults (rules R11, R173). -/
def displayShadowCheck (i : Instr) (s : State) : Option Fault :=
  if s.shadowD = none then some (.unwrittenShadow (encode i) .d)
  else if s.shadowC = none then some (.unwrittenShadow (encode i) .c)
  else if s.shadowB = none then some (.unwrittenShadow (encode i) .b)
  else none

/-- Serving a request: a block that is not ready leaves the host waiting (rules R22, R181); a failed check is taken at
acceptance (rule R175); otherwise the request runs to its end (rule R60). -/
def State.serve (s : State) (i : Instr) (check : Option Fault) (actions : List Action) :
    Host.Outcome State Fault Refusal :=
  if s.ready then
    match check with
    | some f => .next (s.raise f)
    | none => .next ((s.accept i).performAll actions)
  else .next s

end Sys2Proof.Machine
end

