-- ==== Sys2Proof/Machine/Backlight.lean ====
section
/-! DEFINITION. The backlight requests, BACKLIGHT_OFF and BACKLIGHT_ON (rules R160 to R163). -/

namespace Sys2Proof.Machine

/-- The DISPLAY-CONTROL byte from the shadow (rule R160), where all of it has been written. -/
def shadowedDisplayControl (s : State) : Option Byte :=
  match s.shadowD, s.shadowC, s.shadowB with
  | some d, some c, some b => some (displayControlByte d c b)
  | _, _, _ => none

/-- Write the backlight shadow, then re-send DISPLAY-CONTROL with it (rules R160 to R162). The list is empty where the shadow
holds ⊥; the check has faulted there. -/
def backlightActions (level : Bit) (s : State) : List Action :=
  match shadowedDisplayControl s with
  | some byte => .set (.bl level) :: transmitActions s.cfg level byte .command ++ [.done 0]
  | none => []

/-- The checks of both requests, in order (rules R160, R161, R178). -/
def backlightCheck (i : Instr) (s : State) : Option Fault :=
  firstFault (configuredCheck i s) (displayShadowCheck i s)

/-- BACKLIGHT_OFF (rule R160). -/
def execBacklightOff (s : State) : Host.Outcome State Fault Refusal :=
  s.serve .backlightOff (backlightCheck .backlightOff s) (backlightActions 0 s)

/-- BACKLIGHT_ON (rule R161). -/
def execBacklightOn (s : State) : Host.Outcome State Fault Refusal :=
  s.serve .backlightOn (backlightCheck .backlightOn s) (backlightActions 1 s)

end Sys2Proof.Machine
end

