-- ==== Sys2Proof/Machine/Sequencer.lean ====
section
/-! DEFINITION. The initialization sequencer's two requests, INITIALIZE and BEGIN (rules R100 to R105). -/

namespace Sys2Proof.Machine

/-- INITIALIZE: the lines become outputs, then one all-zero frame (rule R100). -/
def initialiseActions : List Action :=
  [.set .pinsCfg, .sendFrame 0x00, .done 0]

/-- INITIALIZE (rule R100). It never raises NOT_CONFIGURED. -/
def execInitialise (s : State) : Host.Outcome State Fault Refusal :=
  s.serve .initialise none initialiseActions

/-- BEGIN's checks (rules R101, R103, R178). -/
def beginLcdCheck (cols lines : Byte) (font : Font) (s : State) : Option Fault :=
  firstFault (configuredCheck (.beginLcd cols lines font) s)
    (if lines = 0 then some (.badGeometry (encode (.beginLcd cols lines font))) else none)

/-- BEGIN step 1: the power-on wait (rules R101, R197). -/
def powerOnWaitActions : List Action :=
  List.replicate Config.nPor (.wait Config.tPorStep)

/-- BEGIN steps 2 to 5: the bring-up nibbles and their waits (rules R91, R101, R198). -/
def bringUpActions (p : Params) (bl : Bit) : List Action :=
  transmitActions p bl bringUpByte .init ++ [.wait p.tInit1]
    ++ transmitActions p bl bringUpByte .init ++ [.wait p.tInit2]
    ++ transmitActions p bl bringUpByte .init ++ [.wait p.tInit3]
    ++ transmitActions p bl fourBitByte .init ++ [.wait p.tInit4]

/-- BEGIN steps 6 to 10: the commands, each shadow written before the transmission that carries it (rules R101, R105,
R196). -/
def setupActions (p : Params) (bl twoLine font : Bit) : List Action :=
  [.set (.shadowN twoLine), .set (.shadowF font)]
    ++ transmitActions p bl (functionSetByte twoLine font) .command
    ++ [.set (.shadowD 0), .set (.shadowC 0), .set (.shadowB 0)]
    ++ transmitActions p bl (displayControlByte 0 0 0) .command
    ++ transmitActions p bl clearDisplayByte .command ++ [.wait p.tClear]
    ++ [.set (.shadowID 1), .set (.shadowSH 0)]
    ++ transmitActions p bl (entryModeByte 1 0) .command
    ++ [.set (.shadowD 1), .set (.shadowC 0), .set (.shadowB 0)]
    ++ transmitActions p bl (displayControlByte 1 0 0) .command

/-- BEGIN's ten steps (rule R101), with `N` and `F` resolved by rule R102. -/
def beginLcdActions (cols lines : Byte) (font : Font) (s : State) : List Action :=
  [.set (.cols cols), .set (.lines lines)]
    ++ powerOnWaitActions
    ++ bringUpActions s.cfg s.bl
    ++ setupActions s.cfg s.bl (lineMode lines) (resolvedFont font lines)
    ++ [.done 0]

/-- BEGIN (rule R101). -/
def execBeginLcd (cols lines : Byte) (font : Font) (s : State) : Host.Outcome State Fault Refusal :=
  s.serve (.beginLcd cols lines font) (beginLcdCheck cols lines font s) (beginLcdActions cols lines font s)

end Sys2Proof.Machine
end

