-- ==== Sys2Proof/Machine/Transmit.lean ====
section
/-! DEFINITION. The three transmission requests, INIT_NIBBLE, COMMAND and WRITE_CHAR (rules R132, R133, R135). -/

namespace Sys2Proof.Machine

/-- INIT_NIBBLE: one slot with the operand's low nibble (rule R132). -/
def initNibbleActions (value : Byte) (s : State) : List Action :=
  transmitActions s.cfg s.bl value .init ++ [.done 0]

/-- INIT_NIBBLE (rule R132). -/
def execInitNibble (value : Byte) (s : State) : Host.Outcome State Fault Refusal :=
  s.serve (.initNibble value) (configuredCheck (.initNibble value) s) (initNibbleActions value s)

/-- COMMAND: two slots with register-select low; no shadow is written (rule R133). -/
def commandActions (value : Byte) (s : State) : List Action :=
  transmitActions s.cfg s.bl value .command ++ [.done 0]

/-- COMMAND (rule R133). -/
def execCommand (value : Byte) (s : State) : Host.Outcome State Fault Refusal :=
  s.serve (.command value) (configuredCheck (.command value) s) (commandActions value s)

/-- WRITE_CHAR: two slots with register-select high, and the count 1 (rule R135). -/
def writeCharActions (value : Byte) (s : State) : List Action :=
  transmitActions s.cfg s.bl value .character ++ [.done 1]

/-- WRITE_CHAR (rule R135). -/
def execWriteChar (value : Byte) (s : State) : Host.Outcome State Fault Refusal :=
  s.serve (.writeChar value) (configuredCheck (.writeChar value) s) (writeCharActions value s)

end Sys2Proof.Machine
end

