-- ==== Sys2Proof/Machine/Dispatch.lean ====
section
/-! DEFINITION. One arm per request (opcode_table.json). -/

namespace Sys2Proof.Machine

def exec (i : Instr) (s : State) : Host.Outcome State Fault Refusal :=
  match i with
  | .initialise => Sys2Proof.Machine.execInitialise s
  | .beginLcd cols lines font => Sys2Proof.Machine.execBeginLcd cols lines font s
  | .initNibble value => Sys2Proof.Machine.execInitNibble value s
  | .command value => Sys2Proof.Machine.execCommand value s
  | .writeChar value => Sys2Proof.Machine.execWriteChar value s
  | .backlightOff => Sys2Proof.Machine.execBacklightOff s
  | .backlightOn => Sys2Proof.Machine.execBacklightOn s

end Sys2Proof.Machine
end

