-- ==== Sys2Proof/Machine/Turn.lean ====
section
/-! DEFINITION. What the block does in one transition, given the host's next move (rules R106, R178, R181, R190): the checks
and the action list of each request, one action of the request being executed, acceptance watched action by action, reset. -/

namespace Sys2Proof.Machine

/-- The checks of a request, in the order of rule R178. -/
def checkOf (i : Instr) (s : State) : Option Fault :=
  match i with
  | .initialise => none
  | .beginLcd cols lines font => beginLcdCheck cols lines font s
  | .initNibble value => configuredCheck (.initNibble value) s
  | .command value => configuredCheck (.command value) s
  | .writeChar value => configuredCheck (.writeChar value) s
  | .backlightOff => backlightCheck .backlightOff s
  | .backlightOn => backlightCheck .backlightOn s

/-- The action list of a request (rules R29, R106). It reads only the parameters, `BL` and the display-control shadow, and no
request changes what its own list reads, so it is the same list at every action of the request. -/
def actionsOf (i : Instr) (s : State) : List Action :=
  match i with
  | .initialise => initialiseActions
  | .beginLcd cols lines font => beginLcdActions cols lines font s
  | .initNibble value => initNibbleActions value s
  | .command value => commandActions value s
  | .writeChar value => writeCharActions value s
  | .backlightOff => backlightActions 0 s
  | .backlightOn => backlightActions 1 s

/-- Whether a move presents a word; the others are moves at `rst`, or let time pass. -/
def HostMove.isWord : HostMove → Bool
  | .request _ => true
  | .requestStepwise _ => true
  | .pass => false
  | .assertReset => false
  | .releaseReset => false

/-- The first move that presents no word, in front of the words before it: the host holds those words and makes that move meanwhile,
since `req` and `rst` are ports of their own (rule R181). The list is as it was where it has no such move. -/
def pastWords : List HostMove → List HostMove
  | [] => []
  | m :: rest =>
    if m.isWord then
      match pastWords rest with
      | [] => [m]
      | x :: more => if x.isWord then m :: x :: more else x :: m :: more
    else m :: rest

/-- The host's moves as this transition meets them. A ready block accepts a word in its turn. No word is accepted by a block that is
not ready, and the host may raise or lower `rst`, "at any time", while it holds one (rules R178, R181, R190; log entry 3). -/
def State.comingMoves (s : State) : List HostMove :=
  if s.ready then s.host else pastWords s.host

/-- The host's moves after the one it has made. -/
def State.afterMove (s : State) (rest : List HostMove) : State :=
  { s with host := rest }

/-- What one transition of the block comes to: a state, the end of a faulted run, or the service of an accepted word. -/
inductive Turn where
  | moved (t : State)
  | stopped (f : Fault)
  | serves (w : ReqWord) (t : State)
  deriving DecidableEq, Repr

/-- The next action of the request being executed (rule R106). A position past the list's end is no state of the block and
has no transition (log entry 20). -/
def State.advance (s : State) (i : Instr) (k : Nat) : State :=
  match (actionsOf i s)[k]? with
  | some a => s.perform a
  | none => s

/-- The block's own transition, no request being accepted: held in reset (rule R190), quiescent after a fault (rule R175), the
next action of a request (rule R106), or idle (rule R186), where only the pulse on `done` ends. -/
def State.ownTurn (s : State) : Turn :=
  if s.rst then .moved s
  else
    match s.fault with
    | some f => .stopped f
    | none =>
      match s.seq with
      | .idle => .moved { s with done := false }
      | .active i k => .moved (s.advance i k)

/-- A move that lets one transition pass: a faulted block stays as it is (rule R175). -/
def State.passTurn (s : State) : Turn :=
  match s.ownTurn with
  | .stopped _ => .moved s
  | turn => turn

/-- Accepting a word without running it on: decode, check, `seq <- (req, 0)` (rules R106, R178, R181). -/
def State.acceptWord (s : State) (w : ReqWord) : State :=
  match decode w with
  | .error _ => s.raise (.reservedRequest w)
  | .ok i =>
    match checkOf i s with
    | some f => s.raise f
    | none => s.accept i

/-- One transition under the host's next move. Reset comes first (rule R178). A word is accepted only when the block is ready;
until then the host holds it (rule R181). -/
def State.turn (s : State) : Turn :=
  match s.comingMoves with
  | [] => s.ownTurn
  | .assertReset :: rest => .moved (s.afterMove rest).takeReset
  | .releaseReset :: rest =>
    if s.rst then .moved { s.afterMove rest with rst := false } else (s.afterMove rest).passTurn
  | .pass :: rest => (s.afterMove rest).passTurn
  | .request w :: rest => if s.ready then .serves w (s.afterMove rest) else s.ownTurn
  | .requestStepwise w :: rest => if s.ready then .moved ((s.afterMove rest).acceptWord w) else s.ownTurn

/-- An idle block at the ready, to whose host the presenting of `w` has been given as the next move (log entry 17). -/
def State.presented (s : State) (w : ReqWord) : State :=
  { s with busy := false, seq := .idle, fault := none, rst := false, host := .request w :: s.host }

end Sys2Proof.Machine
end

