-- ==== Sys2Proof/Machine/Step.lean ====
section
/-! DEFINITION. The step: the block's transition under the host's next move (Turn), and the service of a request word that
transition accepts (rules R106, R172, R181). -/

namespace Sys2Proof.Machine

/-- One step. An accepted word is decoded first: a reserved one faults (rule R172), any other is executed. -/
def step (s : State) : Host.Outcome State Fault Refusal :=
  match s.turn with
  | .moved t => .next t
  | .stopped f => .fault f
  | .serves w t =>
    match decode w with
    | .error _ => .next (t.raise (.reservedRequest w))
    | .ok i => exec i t

/-- `s` with the request word whose bits are `w` (numbered as opcode_table.json numbers them, those above `nbits` 0)
presented next to an idle block, so that the next step accepts and runs it (log entry 17). -/
def State.withFetchWord (s : State) (nbits w : Nat) : State :=
  s.presented (BitVec.ofNat 24 (w % 2 ^ nbits))

end Sys2Proof.Machine
end

