-- ==== Sys2Proof/Machine/Observe.lean ====
section
/-! DEFINITION. What is read off a run (rule R8): the lines the LCD sees (rule R54), the LCD's latches (rules R92, R134), and the
counts and lower bounds of rule R107 and rule R182. None of it is state. -/

namespace Sys2Proof.Machine

/-- The LCD's lines and the backlight switch (rule R54). -/
structure LcdLines where
  rs : Bool
  backlight : Bool
  e : Bool
  db4 : Bool
  db5 : Bool
  db6 : Bool
  db7 : Bool
  deriving DecidableEq, Repr

/-- Output Qi shows bit i of `q`; Q0 drives nothing (rule R54). -/
def lcdLines (q : Byte) : LcdLines where
  rs := q.getLsbD 1
  backlight := q.getLsbD 2
  e := q.getLsbD 3
  db4 := q.getLsbD 4
  db5 := q.getLsbD 5
  db6 := q.getLsbD 6
  db7 := q.getLsbD 7

/-- `Latch(rs, nib)`: what the LCD receives at a falling edge of E (rule R134). -/
structure Latch where
  rs : Bool
  nib : Nibble
  deriving DecidableEq, Repr

/-- The register of the LCD that RS selects (rule R92). -/
inductive LcdRegister where
  | instruction
  | data
  deriving DecidableEq, Repr

/-- RS = 0 selects the instruction register, RS = 1 the data register (rule R92). -/
def Latch.register (l : Latch) : LcdRegister :=
  if l.rs then .data else .instruction

/-- Whether E was high before a frame; unwritten outputs leave it to a draw (rule R134, log entry 6). -/
def enableWasHigh : Option Byte → Bool
  | some q => q.getLsbD 3
  | none => Config.powerOnLatch

/-- The latch a frame makes: where E was high and the frame has it low (rule R134). -/
def latchOf (q : Option Byte) (f : Byte) : Option Latch :=
  if enableWasHigh q && !f.getLsbD 3 then some ⟨f.getLsbD 1, f.extractLsb' 4 4⟩ else none

/-- The latches of a list of events, the outputs showing `q` before it (rule R134). -/
def latches (q : Option Byte) : List Event → List Latch
  | [] => []
  | .frame f :: rest => (latchOf q f).toList ++ latches (some f) rest
  | .delay _ :: rest => latches q rest
  | .done _ :: rest => latches q rest

/-- The frames of a list of events, in order. -/
def framesOf : List Event → List Byte
  | [] => []
  | .frame f :: rest => f :: framesOf rest
  | .delay _ :: rest => framesOf rest
  | .done _ :: rest => framesOf rest

/-- The delays of a list of events, in order. -/
def delaysOf : List Event → List Nat
  | [] => []
  | .frame _ :: rest => delaysOf rest
  | .delay d :: rest => d :: delaysOf rest
  | .done _ :: rest => delaysOf rest

/-- The counts of the `Done` events of a list, in order. -/
def donesOf : List Event → List Byte
  | [] => []
  | .frame _ :: rest => donesOf rest
  | .delay _ :: rest => donesOf rest
  | .done n :: rest => n :: donesOf rest

/-- The least time, in microseconds, a list of events takes (rules R59, R107). -/
def leastMicroseconds (es : List Event) : Nat := (delaysOf es).sum

/-- The least number of time-base ticks that realise `Delay(d)`: `ceil(d * TICK_HZ / 10^6)` (rule R182). -/
def delayTicks (d : Nat) : Nat := (d * Config.tickHz + 999999) / 1000000

end Sys2Proof.Machine
end

