-- ==== Sys2Proof/Machine/Pins.lean ====
section
/-! DEFINITION. The pin-level refinement of one SendFrame (rules R52, R55, R56): the moves of the three lines, and what they do
to the shift register's serial stage `sr` and outputs `q`. The machine itself is at frame level (rule R7, log entry 1). -/

namespace Sys2Proof.Machine

/-- One move of one line (rule R55); `true` is HIGH. -/
inductive LineMove where
  | latch (level : Bool)
  | clk (level : Bool)
  | data (level : Bool)
  deriving DecidableEq, Repr

/-- The host pin a move drives (rule R5, WIRING). -/
def LineMove.pin : LineMove → Nat
  | .latch _ => Config.wiring.latchPin
  | .clk _ => Config.wiring.clockPin
  | .data _ => Config.wiring.dataPin

/-- The driven lines and the shift register (rules R35, R55). -/
structure PinState where
  latch : Bool
  clk : Bool
  data : Bool
  /-- the serial stage (rule R35) -/
  sr : Byte
  /-- the parallel outputs (rule R28) -/
  q : Option Byte
  deriving DecidableEq, Repr

/-- What a move does (rule R55): raising CLK shifts DATA into the low end of `sr`, raising LATCH copies `sr` to the outputs,
every other move only changes its line. -/
def PinState.apply (p : PinState) (m : LineMove) : PinState :=
  match m with
  | .latch true => { p with latch := true, q := some p.sr }
  | .latch false => { p with latch := false }
  | .clk true => { p with clk := true, sr := p.sr <<< 1 ||| (BitVec.ofBool p.data).setWidth 8 }
  | .clk false => { p with clk := false }
  | .data level => { p with data := level }

/-- Moves in order. -/
def PinState.applyAll (p : PinState) : List LineMove → PinState
  | [] => p
  | m :: rest => (p.apply m).applyAll rest

/-- The states a list of moves passes through, the last one included and the first one not. -/
def PinState.path (p : PinState) : List LineMove → List PinState
  | [] => []
  | m :: rest => p.apply m :: (p.apply m).path rest

/-- One bit of a frame on the lines: DATA first, then CLK up and down (rule R55). -/
def bitMoves (b : Bool) : List LineMove := [.data b, .clk true, .clk false]

/-- The bits of a frame in the order they are shifted, `f[7]` first (rule R52). -/
def shiftOrder (f : Byte) : List Bool :=
  [f.getLsbD 7, f.getLsbD 6, f.getLsbD 5, f.getLsbD 4, f.getLsbD 3, f.getLsbD 2, f.getLsbD 1, f.getLsbD 0]

/-- The moves of a SendFrame before its closing latch edge: LATCH low, then the eight bits (rule R55). -/
def shiftMoves (f : Byte) : List LineMove :=
  .latch false :: (shiftOrder f).flatMap bitMoves

/-- `SendFrame(f)` on the lines (rule R55). -/
def sendFrameMoves (f : Byte) : List LineMove :=
  shiftMoves f ++ [.latch true]

/-- An event on the lines: a frame moves them, a delay leaves them as they are (rule R59), `Done` is no line. -/
def Event.lineMoves : Event → List LineMove
  | .frame f => sendFrameMoves f
  | .delay _ => []
  | .done _ => []

end Sys2Proof.Machine
end

