-- ==== Sys2Proof/Safety.lean ====
section
/-! DEFINITION. What claims about runs are stated in: the end of a run (rule R8), a faulted state (rule R175), and the
invariant of the machine's states; and the event lists the rules write out (rules R101, R131). -/

namespace Sys2Proof.Machine

/-- The three events of one slot (rules R85, R131). -/
def slotEvents (p : Params) (bl rs : Bit) (nib : Nibble) : List Event :=
  [.frame (assembleFrame nib rs bl 1), .delay p.tEn, .frame (assembleFrame nib rs bl 0)]

/-- The events of a one-slot transmission (rules R87, R131). -/
def nibbleEvents (p : Params) (bl : Bit) (nib : Nibble) : List Event :=
  slotEvents p bl 0 nib ++ [.delay 60]

/-- The events of a two-slot transmission, register-select being `rs` (rules R53, R87, R131). -/
def byteEvents (p : Params) (bl rs : Bit) (value : Byte) : List Event :=
  slotEvents p bl rs (highNibble value) ++ slotEvents p bl rs (lowNibble value) ++ [.delay 60]

/-- The events of BEGIN before its `Done`, step by step (rule R101), `fset` being its FUNCTION-SET byte. -/
def beginEvents (p : Params) (bl : Bit) (fset : Byte) : List Event :=
  List.replicate 200 (.delay 1000)
    ++ nibbleEvents p bl 0x3 ++ [.delay p.tInit1]
    ++ nibbleEvents p bl 0x3 ++ [.delay p.tInit2]
    ++ nibbleEvents p bl 0x3 ++ [.delay p.tInit3]
    ++ nibbleEvents p bl 0x2 ++ [.delay p.tInit4]
    ++ byteEvents p bl 0 fset
    ++ byteEvents p bl 0 0x08
    ++ byteEvents p bl 0 0x01 ++ [.delay p.tClear]
    ++ byteEvents p bl 0 0x06
    ++ byteEvents p bl 0 0x0C

/-- `s` after a request that emitted `es`, left the frame `f` at the outputs and returned `n`: nothing else changed
(rules R22, R29, R181). -/
def State.completed (s : State) (es : List Event) (f : Byte) (n : Byte) : State :=
  { s with
    q := some f
    trace := s.trace ++ es ++ [.done n]
    seq := .idle
    busy := false
    done := true
    doneCount := n }

/-- `t` is `s` with the fault `f` taken at acceptance (rule R175): busy and the fault set, no event, no write. What the rule does
not speak of, the sequencer's position and the pulse on `done`, is left open here (log entries 4 and 7). -/
def State.faultTaken (s : State) (f : Fault) (t : State) : Prop :=
  t = { s with busy := true, fault := some f, seq := t.seq, done := t.done }

/-- Whether the host presents a word, now or later, in the run it is in: a word after the next reset belongs to another run (rule R190;
log entry 29). -/
def requestPending : List HostMove → Bool
  | [] => false
  | .assertReset :: _ => false
  | .request _ :: _ => true
  | .requestStepwise _ :: _ => true
  | .pass :: rest => requestPending rest
  | .releaseReset :: rest => requestPending rest

/-- A run has ended (rule R8): the block is idle, no request is pending, no fault is recorded. -/
def State.final (s : State) : Prop :=
  s.busy = false ∧ requestPending s.host = false ∧ s.fault = none

/-- No element that only BEGIN writes has been written (rules R11, R40). -/
def State.shadowsUnwritten (s : State) : Prop :=
  s.shadowN = none ∧ s.shadowF = none ∧ s.shadowD = none ∧ s.shadowC = none ∧ s.shadowB = none ∧
    s.shadowID = none ∧ s.shadowSH = none ∧ s.cols = none ∧ s.lines = none

/-- Rule R40's table, for the elements a reset writes. -/
def State.elementsReset (s : State) : Prop :=
  s.pinsCfg = false ∧ s.busy = false ∧ s.bl = s.cfg.blReset ∧ s.shadowsUnwritten ∧ s.seq = .idle ∧ s.fault = none

/-- The machine's invariant. -/
structure State.Inv (s : State) : Prop where
  /-- the block is busy exactly while a request executes or a fault is recorded (rules R22, R175) -/
  busy_iff : s.busy = true ↔ s.seq ≠ .idle ∨ s.fault ≠ none
  /-- no request executes in a faulted block (rule R175) -/
  fault_idle : s.fault ≠ none → s.seq = .idle
  /-- a request being executed has passed its checks and has an action left (rules R29, R178) -/
  active_ok : ∀ i k, s.seq = .active i k → checkOf i s = none ∧ k < (actionsOf i s).length
  /-- past its first action a request has its lines configured (rules R100, R171) -/
  active_configured : ∀ i k, s.seq = .active i k → k ≠ 0 → s.pinsCfg = true
  /-- before INITIALIZE nothing has been emitted and no shadow written (rules R21, R130) -/
  unconfigured : s.pinsCfg = false → s.trace = [] ∧ s.shadowsUnwritten
  /-- frame bit 0 is 0 in every frame of the run and at the outputs (rule R81) -/
  trace_even : ∀ f, .frame f ∈ s.trace → f.getLsbD 0 = false
  outputs_even : ∀ f, s.q = some f → f.getLsbD 0 = false
  /-- in reset every element has its reset value (rules R40, R190) -/
  in_reset : s.rst = true → s.elementsReset

end Sys2Proof.Machine
end

