-- ==== Sys2Proof/Certificates/Slice0/Obligations.lean ====
section
/-! DEFINITION. The statements for the provers, from the numbered rules of spec/. -/

open Sys2Proof Sys2Proof.Machine

/-! ### The request word -/

/-- Rules R72, R74, R75: the decoder reads back every request the encoder writes. -/
def Obligations.DecodeOfEncode : Prop :=
  ∀ i : Instr, decode (encode i) = .ok i

/-- Rules R72, R75: a word that is a request is the only word of that request, so no bit of it is dropped. -/
def Obligations.EncodeOfDecode : Prop :=
  ∀ (w : ReqWord) (i : Instr), decode w = .ok i → encode i = w

/-- Rule R72: a word that matches a row under its mask is that row's request, with rule R74's operands, and a word that
matches none is reserved. No two rows overlap, or two clauses would give one word two requests. -/
def Obligations.RowsSelectRequests : Prop :=
  ∀ w : ReqWord,
    (w &&& 0xFFFFFF = 0x000000 → decode w = .ok .initialise) ∧
    (w &&& 0xF70000 = 0x100000 → decode w = .ok (.beginLcd (w.extractLsb' 8 8) (w.extractLsb' 0 8)
      (if w.extractLsb' 19 1 = 1 then .large else .small))) ∧
    (w &&& 0xFFFF00 = 0x200000 → decode w = .ok (.initNibble (w.extractLsb' 0 8))) ∧
    (w &&& 0xFFFF00 = 0x300000 → decode w = .ok (.command (w.extractLsb' 0 8))) ∧
    (w &&& 0xFFFF00 = 0x400000 → decode w = .ok (.writeChar (w.extractLsb' 0 8))) ∧
    (w &&& 0xFFFFFF = 0x500000 → decode w = .ok .backlightOff) ∧
    (w &&& 0xFFFFFF = 0x600000 → decode w = .ok .backlightOn) ∧
    ((∃ r, decode w = .error r) ∨ w &&& 0xFFFFFF = 0x000000 ∨ w &&& 0xF70000 = 0x100000 ∨ w &&& 0xFFFF00 = 0x200000 ∨
      w &&& 0xFFFF00 = 0x300000 ∨ w &&& 0xFFFF00 = 0x400000 ∨ w &&& 0xFFFFFF = 0x500000 ∨ w &&& 0xFFFFFF = 0x600000)

/-- Rule R73, clauses (a) to (e): the reserved words. -/
def Obligations.ReservedWords : Prop :=
  ∀ w : ReqWord, (∃ r, decode w = .error r) ↔
    7 ≤ (w.extractLsb' 20 4).toNat ∨ w.extractLsb' 16 3 ≠ 0 ∨
      (w.extractLsb' 20 4 ≠ 1 ∧ w.extractLsb' 19 1 ≠ 0) ∨ (w.extractLsb' 20 4 ≠ 1 ∧ w.extractLsb' 8 8 ≠ 0) ∨
      ((w.extractLsb' 20 4 = 0 ∨ w.extractLsb' 20 4 = 5 ∨ w.extractLsb' 20 4 = 6) ∧ w.extractLsb' 0 8 ≠ 0)

/-- Words of 95_test_vectors.md, sections 2.2 to 2.8, and what they stand for (rules R72 to R74). -/
def Obligations.VectorWordsDecode : Prop :=
  decode 0x000000 = .ok .initialise ∧ decode 0x101002 = .ok (.beginLcd 16 2 .small) ∧
    decode 0x181401 = .ok (.beginLcd 20 1 .large) ∧ decode 0x10FFFF = .ok (.beginLcd 255 255 .small) ∧
    decode 0x2000F3 = .ok (.initNibble 0xF3) ∧ decode 0x3000A5 = .ok (.command 0xA5) ∧
    decode 0x400041 = .ok (.writeChar 0x41) ∧ decode 0x500000 = .ok .backlightOff ∧
    decode 0x600000 = .ok .backlightOn ∧ decode 0x700000 = .error .opcode ∧ decode 0x1F0000 = .error .rsv ∧
    decode 0x080000 = .error .fnt ∧ decode 0x300100 = .error .operandA ∧ decode 0x600080 = .error .operandB

/-- Rule R76: an assembler line is a request exactly where each of its operands fits its field. -/
def Obligations.OversizedOperandIsNoRequest : Prop :=
  ∀ m n : Nat, ∀ font : Option Font,
    ((AsmLine.command n).toInstr? = none ↔ 256 ≤ n) ∧ ((AsmLine.writeChar n).toInstr? = none ↔ 256 ≤ n) ∧
      ((AsmLine.initNibble n).toInstr? = none ↔ 256 ≤ n) ∧
      ((AsmLine.beginLcd m n font).toInstr? = none ↔ 256 ≤ m ∨ 256 ≤ n)

/-! ### Frames -/

/-- Rule R80: the bits of an assembled frame, and that 1 is HIGH on the lines of E, BL and RS. -/
def Obligations.FrameFields : Prop :=
  ∀ (nib : Nibble) (rs bl en : Bit), assembleFrame nib rs bl en = nib ++ en ++ bl ++ rs ++ 0#1 ∧
    ((lcdLines (assembleFrame nib rs bl en)).e = true ↔ en = 1) ∧
    ((lcdLines (assembleFrame nib rs bl en)).backlight = true ↔ bl = 1) ∧
    ((lcdLines (assembleFrame nib rs bl en)).rs = true ↔ rs = 1)

/-- Rule R82: the nibble bits of the frames of slot 0 and slot 1. -/
def Obligations.NibblePlacement : Prop :=
  ∀ (value : Byte) (rs bl en : Bit),
    assembleFrame (highNibble value) rs bl en &&& 0xF0 = value &&& 0xF0 ∧
      assembleFrame (lowNibble value) rs bl en &&& 0xF0 = value <<< 4 &&& 0xF0

/-- Rule R54: frame bit i on output Qi: a frame puts its register-select, backlight and enable bits on their lines, and nibble bit
k on DB(4+k). The rule marks its index mapping and the order on DB4 to DB7 as the spec's own (decision D12). -/
def Obligations.OutputsDriveLcdLines : Prop :=
  ∀ (nib : Nibble) (rs bl en : Bit), lcdLines (assembleFrame nib rs bl en) =
    { rs := decide (rs = 1), backlight := decide (bl = 1), e := decide (en = 1), db4 := nib.getLsbD 0
      db5 := nib.getLsbD 1, db6 := nib.getLsbD 2, db7 := nib.getLsbD 3 }

/-- Rule R182: a delay counts at least `ceil(d * TICK_HZ / 10^6)` ticks, whatever TICK_HZ is. -/
def Obligations.DelayTicksAreCeiling : Prop :=
  ∀ d n : Nat, delayTicks d ≤ n ↔ d * Config.tickHz ≤ n * 1000000

/-! ### What a step is -/

/-- Rule R181: where the host presents a word to a ready block and the word is a request, the step takes the move and is that
request's meaning. That one step runs the whole request is the model's choice of a step (DESIGN CHOICE, log entry 2; rule R106 has
one action a transition), and so is the list of moves the word is taken from (DESIGN CHOICE, log entry 3). -/
def Obligations.StepRunsDecodedRequest : Prop :=
  ∀ (s : State) (w : ReqWord) (rest : List HostMove) (i : Instr),
    s.host = .request w :: rest → s.ready = true → decode w = .ok i → step s = exec i (s.afterMove rest)

/-- Rule R172: a reserved word that is accepted faults, however it was presented and whatever the state holds (rule R75: before
any other check); nothing else changes (rule R175). -/
def Obligations.ReservedRequestFaults : Prop :=
  ∀ (s : State) (w : ReqWord) (rest : List HostMove) (r : ReservedBy),
    (s.host = .request w :: rest ∨ s.host = .requestStepwise w :: rest) → s.ready = true → decode w = .error r →
      ∃ t, step s = .next t ∧ (s.afterMove rest).faultTaken (.reservedRequest w) t

/-- Rules R22, R181, R190: a block that is busy or in reset takes no word; the host goes on holding those it has, in their order. That
the words stand in a list of moves is the model's choice (log entry 3). -/
def Obligations.UnreadyBlockTakesNoWord : Prop :=
  ∀ s t : State, s.ready = false → step s = .next t → t.host.filter HostMove.isWord = s.host.filter HostMove.isWord

/-- Rules R22, R181: a meaning called on a block that is not ready changes nothing, whichever the request. The spec lets the host
wait; that the meaning then answers the same state is the model's choice (log entry 23). -/
def Obligations.UnreadyBlockRunsNothing : Prop :=
  ∀ (i : Instr) (s : State), s.ready = false → exec i s = .next s

/-- Rule R186: an idle block with nothing to do emits nothing and holds its outputs; only the pulse on `done` ends, whose
length is the model's choice (log entries 7 and 20). -/
def Obligations.IdleBlockHolds : Prop :=
  ∀ s : State, s.seq = .idle → s.fault = none → s.rst = false → s.host = [] → step s = .next { s with done := false }

/-! ### The requests: where they complete, and with what

That a request runs to its end in one step is the model's choice of a step (log entry 2); that one step is the request's actions one
at a time is Obligations.RequestIsItsActions. -/

/-- Rule R100: INITIALIZE completes from every ready state. -/
def Obligations.InitialiseCompletes : Prop :=
  ∀ s : State, s.ready = true →
    exec .initialise s = .next ({ s with pinsCfg := true }.completed [.frame 0x00] 0x00 0)

/-- Rule R101: BEGIN completes from every ready, configured state, for every line count but 0. -/
def Obligations.BeginCompletes : Prop :=
  ∀ (s : State) (cols lines : Byte) (font : Font), s.ready = true → s.pinsCfg = true → lines ≠ 0 →
    exec (.beginLcd cols lines font) s = .next
      ({ s with
          cols := some cols
          lines := some lines
          shadowN := some (if 2 ≤ lines.toNat then 1 else 0)
          shadowF := some (if font = Font.large ∧ lines = 1 then 1 else 0)
          shadowD := some 1
          shadowC := some 0
          shadowB := some 0
          shadowID := some 1
          shadowSH := some 0 }.completed
        (beginEvents s.cfg s.bl
          (if 2 ≤ lines.toNat then 0x28 else if font = Font.large then 0x24 else 0x20))
        (0xC0 ||| s.bl.setWidth 8 <<< 2) 0)

/-- Rule R132: INIT_NIBBLE completes from every ready, configured state, for every value. -/
def Obligations.InitNibbleCompletes : Prop :=
  ∀ (s : State) (value : Byte), s.ready = true → s.pinsCfg = true →
    exec (.initNibble value) s = .next
      (s.completed (nibbleEvents s.cfg s.bl (lowNibble value)) (assembleFrame (lowNibble value) 0 s.bl 0) 0)

/-- Rule R133: COMMAND completes from every ready, configured state, for every value, and writes no shadow. -/
def Obligations.CommandCompletes : Prop :=
  ∀ (s : State) (value : Byte), s.ready = true → s.pinsCfg = true →
    exec (.command value) s = .next
      (s.completed (byteEvents s.cfg s.bl 0 value) (assembleFrame (lowNibble value) 0 s.bl 0) 0)

/-- Rule R135: WRITE_CHAR completes from every ready, configured state, for every value, and returns 1. -/
def Obligations.WriteCharCompletes : Prop :=
  ∀ (s : State) (value : Byte), s.ready = true → s.pinsCfg = true →
    exec (.writeChar value) s = .next
      (s.completed (byteEvents s.cfg s.bl 1 value) (assembleFrame (lowNibble value) 1 s.bl 0) 1)

/-- Rule R160: BACKLIGHT_OFF completes wherever the display-control shadow has been written. -/
def Obligations.BacklightOffCompletes : Prop :=
  ∀ (s : State) (d c b : Bit), s.ready = true → s.pinsCfg = true →
    s.shadowD = some d → s.shadowC = some c → s.shadowB = some b →
    exec .backlightOff s = .next
      ({ s with bl := 0 }.completed
        (byteEvents s.cfg 0 0 (0x08 ||| d.setWidth 8 <<< 2 ||| c.setWidth 8 <<< 1 ||| b.setWidth 8))
        (assembleFrame (0x8 ||| d.setWidth 4 <<< 2 ||| c.setWidth 4 <<< 1 ||| b.setWidth 4) 0 0 0) 0)

/-- Rule R161: BACKLIGHT_ON completes wherever the display-control shadow has been written. -/
def Obligations.BacklightOnCompletes : Prop :=
  ∀ (s : State) (d c b : Bit), s.ready = true → s.pinsCfg = true →
    s.shadowD = some d → s.shadowC = some c → s.shadowB = some b →
    exec .backlightOn s = .next
      ({ s with bl := 1 }.completed
        (byteEvents s.cfg 1 0 (0x08 ||| d.setWidth 8 <<< 2 ||| c.setWidth 8 <<< 1 ||| b.setWidth 8))
        (assembleFrame (0x8 ||| d.setWidth 4 <<< 2 ||| c.setWidth 4 <<< 1 ||| b.setWidth 4) 0 1 0) 0)

/-- Rule R41, which the spec marks as derived from rules R101, R102 and R131: the state BEGIN leaves. -/
def Obligations.StateAfterBegin : Prop :=
  ∀ (s : State) (c l : Byte) (fnt : Font), s.ready = true → s.pinsCfg = true → 1 ≤ l.toNat →
    ∃ t, exec (.beginLcd c l fnt) s = .next t ∧
      t.shadowN = some (if 2 ≤ l.toNat then 1 else 0) ∧
      t.shadowF = some (if fnt = Font.large ∧ l.toNat = 1 then 1 else 0) ∧
      t.shadowD = some 1 ∧ t.shadowC = some 0 ∧ t.shadowB = some 0 ∧
      t.shadowID = some 1 ∧ t.shadowSH = some 0 ∧ t.cols = some c ∧ t.lines = some l ∧
      t.bl = s.bl ∧ t.q = some (0xC0 ||| s.bl.setWidth 8 <<< 2)

/-- Rule R102: the line mode and the font BEGIN resolves. -/
def Obligations.LineModeAndFont : Prop :=
  ∀ (s t : State) (cols lines : Byte) (font : Font), s.ready = true → s.pinsCfg = true → lines ≠ 0 →
    exec (.beginLcd cols lines font) s = .next t →
      (t.shadowN = some 1 ↔ 2 ≤ lines.toNat) ∧ (t.shadowN = some 0 ↔ lines.toNat = 1) ∧
      (t.shadowF = some 1 ↔ font = Font.large ∧ lines.toNat = 1) ∧
      (t.shadowF = some 0 ↔ ¬(font = Font.large ∧ lines.toNat = 1))

/-- Rule R132 (and R176(b)): INIT_NIBBLE sends the same for a value and its low nibble. -/
def Obligations.InitNibbleIgnoresHighBits : Prop :=
  ∀ (s : State) (value : Byte), s.pinsCfg = true → exec (.initNibble value) s = exec (.initNibble (value &&& 0x0F)) s

/-! ### Faults -/

/-- Rule R171: every request but INITIALIZE faults while the lines are not configured, whatever its operands (so before its own
checks, rule R178); nothing else changes (rule R175). -/
def Obligations.NotConfiguredFaults : Prop :=
  ∀ (s : State) (i : Instr), i ≠ .initialise → s.ready = true → s.pinsCfg = false →
    ∃ t, exec i s = .next t ∧ s.faultTaken (.notConfigured (encode i)) t

/-- Rule R173: reading D, C or B while it is unwritten faults, and BL is not written; no request but the backlight requests takes this
fault. Which of several unwritten ones is recorded, the first in the order D, C, B, is the model's reading (DEDUCED, log entry 5). -/
def Obligations.UnwrittenShadowFaults : Prop :=
  ∀ (s : State) (i : Instr), s.ready = true → s.pinsCfg = true →
    (i = .backlightOff ∨ i = .backlightOn →
      (s.shadowD = none → ∃ t, exec i s = .next t ∧ s.faultTaken (.unwrittenShadow (encode i) .d) t) ∧
      (s.shadowD ≠ none → s.shadowC = none →
        ∃ t, exec i s = .next t ∧ s.faultTaken (.unwrittenShadow (encode i) .c) t) ∧
      (s.shadowD ≠ none → s.shadowC ≠ none → s.shadowB = none →
        ∃ t, exec i s = .next t ∧ s.faultTaken (.unwrittenShadow (encode i) .b) t)) ∧
    (i ≠ .backlightOff → i ≠ .backlightOn →
      ∀ t w e, exec i s = .next t → t.fault = some (.unwrittenShadow w e) → s.fault = t.fault)

/-- Rule R174: BEGIN with no lines faults. -/
def Obligations.BadGeometryFaults : Prop :=
  ∀ (s : State) (cols : Byte) (font : Font), s.ready = true → s.pinsCfg = true →
    ∃ t, exec (.beginLcd cols 0 font) s = .next t ∧ s.faultTaken (.badGeometry (encode (.beginLcd cols 0 font))) t

/-- Rule R175: a faulted block stops with its fault, whatever words the host holds, or none; where the host only lets time pass
or lowers `rst`, nothing of the block changes. That the stop is an answer of the step after the one that records the fault is the
model's choice (log entry 4), and so is the list of moves (log entry 3). -/
def Obligations.FaultedBlockIsQuiescent : Prop :=
  ∀ (s : State) (f : Fault) (words rest : List HostMove),
    s.fault = some f → s.busy = true → s.rst = false → (∀ x ∈ words, x.isWord = true) →
      (s.host = words → step s = .fault f) ∧
      (s.host = words ++ .pass :: rest → step s = .next (s.afterMove (words ++ rest))) ∧
      (s.host = words ++ .releaseReset :: rest → step s = .next (s.afterMove (words ++ rest)))

/-- Rules R175, R179: only a reset leaves a faulted state (as a next state; with no move to make the step stops, log entry 4). -/
def Obligations.OnlyResetLeavesFault : Prop :=
  ∀ (s t : State) (f : Fault), s.Inv → s.fault = some f → step s = .next t →
    (∃ rest, s.comingMoves = .assertReset :: rest) ∨ (t.fault = some f ∧ t.trace = s.trace ∧ t.q = s.q ∧ t.busy = true)

/-! ### Reset -/

/-- Rules R40, R181, R190, R191: a reset, whatever the block was doing and whatever words it has not accepted the host holds: every
element of rule R40 at its value, `q` kept, the rest of the request abandoned without a `Done`, the words still held. The list of
moves, the new, empty trace and the record of the ended run are the model's (log entries 3 and 8). -/
def Obligations.ResetFromAnyState : Prop :=
  ∀ (s : State) (words rest : List HostMove), (∀ x ∈ words, x.isWord = true) → (words = [] ∨ s.ready = false) →
    s.host = words ++ .assertReset :: rest →
    ∃ t, step s = .next t ∧ t.elementsReset ∧ t.q = s.q ∧ t.rst = true ∧ t.trace = [] ∧ t.cfg = s.cfg ∧
      t.host = words ++ rest ∧ t.ended = s.ended ++ [⟨s.trace, s.seq, s.fault⟩]

/-- Rules R181, R190: while `rst` is up the block accepts no request, whatever words the host holds, and nothing of it changes; the host
may lower `rst` with the words still held (that they stay in its list is the model's form of holding them, log entry 3). -/
def Obligations.NoRequestInReset : Prop :=
  ∀ (s : State) (words rest : List HostMove), s.rst = true → (∀ x ∈ words, x.isWord = true) →
    (s.host = words → step s = .next s) ∧
      (s.host = words ++ .releaseReset :: rest → step s = .next { s with rst := false, host := words ++ rest })

/-- Rule R40: the state after power-on and reset, whatever the parameters. That `rst` is down there, so that the block is
ready, is the model's choice (log entry 3). -/
def Obligations.PowerOnState : Prop :=
  ∀ p : Params, (State.powerOn p).elementsReset ∧ (State.powerOn p).q = none ∧ (State.powerOn p).ready = true ∧
    (State.powerOn p).linesDriven = false

/-- Rules R29, R190: a reset that falls between two actions of a request leaves exactly the events and the outputs of the
actions before it, and no `Done`. The record of the ended run is the model's (log entry 8), that reset falls between two actions
is log entry 13, and that the recorded position counts each single write of a group is log entry 27 (DEDUCED). -/
def Obligations.ResetBetweenActions : Prop :=
  ∀ (s : State) (i : Instr) (k : Nat), s.ready = true → s.fault = none → checkOf i s = none →
    k < (actionsOf i s).length →
      ∃ t u, Host.Core.run core (k + 2)
          { s with host := .requestStepwise (encode i) :: (List.replicate k .pass ++ [.assertReset]) } = .next t ∧
        u = (s.accept i).performAll ((actionsOf i s).take k) ∧
        t.elementsReset ∧ t.q = u.q ∧ t.trace = [] ∧
        t.ended = s.ended ++ [⟨u.trace, .active i k, none⟩] ∧ donesOf u.trace = donesOf s.trace

/-! ### The sequencer -/

/-- Rules R29, R60, R106: a request run to its end in one step (log entry 2) is the same as its actions one transition at a
time. -/
def Obligations.RequestIsItsActions : Prop :=
  ∀ (s : State) (i : Instr), s.ready = true → s.fault = none → s.host = [] → checkOf i s = none →
    Host.Core.run core (1 + (actionsOf i s).length) { s with host := [.requestStepwise (encode i)] } = exec i s

/-- Rules R29, R106: a transition of a block that executes a request performs the request's next action (each single write of a
group being one, log entry 27). -/
def Obligations.TransitionPerformsNextAction : Prop :=
  ∀ (s : State) (i : Instr) (k : Nat) (a : Action), s.seq = .active i k → s.fault = none → s.rst = false →
    s.host = [] → (actionsOf i s)[k]? = some a → step s = .next (s.perform a)

/-! ### Transmissions -/

/-- Rule R136, (a) to (e), which the spec marks as derived from rule R131: the frames of a COMMAND or WRITE_CHAR, and of an
INIT_NIBBLE. -/
def Obligations.TransmissionFrames : Prop :=
  ∀ (s t : State) (value : Byte), s.ready = true → s.pinsCfg = true →
    (∀ i, i = .command value ∨ i = .writeChar value → exec i s = .next t →
      ∃ es f0 f1 f2 f3, t.trace = s.trace ++ es ∧ framesOf es = [f0, f1, f2, f3] ∧
        (∀ f ∈ framesOf es, (f.getLsbD 1 = true ↔ i = .writeChar value) ∧ f.getLsbD 2 = s.bl.getLsbD 0 ∧
          f.getLsbD 0 = false) ∧
        f0.extractLsb' 4 4 ++ f2.extractLsb' 4 4 = value ∧ f1 = f0 &&& 0xF7 ∧ f3 = f2 &&& 0xF7 ∧
        f0.getLsbD 3 = true ∧ f2.getLsbD 3 = true) ∧
    (exec (.initNibble value) s = .next t →
      ∃ es f0 f1, t.trace = s.trace ++ es ∧ framesOf es = [f0, f1] ∧
        (∀ f ∈ framesOf es, (f.extractLsb' 4 4).setWidth 8 = value &&& 0x0F ∧ f.getLsbD 1 = false ∧
          f.getLsbD 2 = s.bl.getLsbD 0 ∧ f.getLsbD 0 = false) ∧
        f1 = f0 &&& 0xF7 ∧ f0.getLsbD 3 = true)

/-- Rule R134, which the spec marks as derived: whatever the outputs showed before, each slot is exactly one latch, with the
slot's nibble and register-select. Where they showed nothing yet, rule R134 calls the first frame a draw; that a first frame with
E = 1 is no latch whatever the draw is the model's reading (DEDUCED, log entry 6). -/
def Obligations.OneLatchPerSlot : Prop :=
  ∀ (s t : State) (q : Option Byte) (value : Byte), s.ready = true → s.pinsCfg = true →
    (exec (.initNibble value) s = .next t →
      ∃ es, t.trace = s.trace ++ es ∧ latches q es = [⟨false, lowNibble value⟩]) ∧
    (exec (.command value) s = .next t →
      ∃ es, t.trace = s.trace ++ es ∧ latches q es = [⟨false, highNibble value⟩, ⟨false, lowNibble value⟩]) ∧
    (exec (.writeChar value) s = .next t →
      ∃ es, t.trace = s.trace ++ es ∧ latches q es = [⟨true, highNibble value⟩, ⟨true, lowNibble value⟩])

/-- Rule R194: in every request every frame with enable high is held for T_EN, at least 1 microsecond, and is then followed by
the same frame with enable low. -/
def Obligations.EnablePulseHeld : Prop :=
  ∀ (s t : State) (i : Instr), s.cfg.Legal → exec i s = .next t →
    ∃ es, t.trace = s.trace ++ es ∧
      ∀ before after f, es = before ++ .frame f :: after → f.getLsbD 3 = true →
        ∃ more, after = .delay s.cfg.tEn :: .frame (f &&& 0xF7) :: more ∧ 1 ≤ s.cfg.tEn

/-- Rules R197, R198: BEGIN's power-on wait, at least 100 ms, and the spacing of its bring-up nibbles. -/
def Obligations.BringUpSpacing : Prop :=
  ∀ (s t : State) (cols lines : Byte) (font : Font), s.cfg.Legal → s.ready = true → s.pinsCfg = true → lines ≠ 0 →
    exec (.beginLcd cols lines font) s = .next t →
      ∃ a b c d more, t.trace = s.trace ++ List.replicate 200 (.delay 1000)
          ++ nibbleEvents s.cfg s.bl 3 ++ [.delay a] ++ nibbleEvents s.cfg s.bl 3 ++ [.delay b]
          ++ nibbleEvents s.cfg s.bl 3 ++ [.delay c] ++ nibbleEvents s.cfg s.bl 2 ++ [.delay d] ++ more ∧
        a = s.cfg.tInit1 ∧ b = s.cfg.tInit2 ∧ c = s.cfg.tInit3 ∧ d = s.cfg.tInit4 ∧
        4100 < a ∧ 100 < b ∧ 100 < c ∧ 100 < d ∧ 100000 ≤ leastMicroseconds (List.replicate 200 (.delay 1000))

/-- Rule R196: BEGIN waits at least 3 ms after its CLEAR-DISPLAY; a COMMAND 0x01 of the host's gets no such wait. -/
def Obligations.ClearWait : Prop :=
  ∀ (s t : State) (cols lines : Byte) (font : Font), s.cfg.Legal → s.ready = true → s.pinsCfg = true →
    (lines ≠ 0 → exec (.beginLcd cols lines font) s = .next t →
      ∃ before d after, t.trace = s.trace ++ before ++ byteEvents s.cfg s.bl 0 0x01 ++ [.delay d] ++ after ∧
        d = s.cfg.tClear ∧ 3000 ≤ d) ∧
    (exec (.command 0x01) s = .next t → t.trace = s.trace ++ byteEvents s.cfg s.bl 0 0x01 ++ [.done 0])

/-- Rule R107, which the spec marks as derived from rules R100, R101 and R131: the frames, delays and least time of each
request with the default parameters, and its one `Done`. -/
def Obligations.RequestLengths : Prop :=
  ∀ (s t : State) (i : Instr), s.cfg = Params.default → s.ready = true → checkOf i s = none → exec i s = .next t →
    ∃ es n, t.trace = s.trace ++ es ++ [.done n] ∧ donesOf es = [] ∧
      ((framesOf es).length, (delaysOf es).length, leastMicroseconds es) =
        match i with
        | .initialise => (1, 0, 0)
        | .beginLcd _ _ _ => (28, 228, 208504)
        | .initNibble _ => (2, 2, 61)
        | .command _ => (4, 3, 62)
        | .writeChar _ => (4, 3, 62)
        | .backlightOff => (4, 3, 62)
        | .backlightOn => (4, 3, 62)

/-! ### Backlight and shadows -/

/-- Rule R162, which the spec marks as derived from rules R160 and R161: a backlight request writes no shadow but BL and sends
exactly one transmission of four frames, all with the new backlight bit. -/
def Obligations.BacklightKeepsShadows : Prop :=
  ∀ (s t : State) (i : Instr) (level : Bit), (i = .backlightOff ∧ level = 0) ∨ (i = .backlightOn ∧ level = 1) →
    s.ready = true → checkOf i s = none → exec i s = .next t →
      t.bl = level ∧ t.shadowN = s.shadowN ∧ t.shadowF = s.shadowF ∧ t.shadowD = s.shadowD ∧ t.shadowC = s.shadowC ∧
        t.shadowB = s.shadowB ∧ t.shadowID = s.shadowID ∧ t.shadowSH = s.shadowSH ∧ t.cols = s.cols ∧
        t.lines = s.lines ∧
        ∃ es f0 f1 f2 f3, t.trace = s.trace ++ es ∧ framesOf es = [f0, f1, f2, f3] ∧
          ∀ f ∈ framesOf es, f.getLsbD 2 = level.getLsbD 0

/-- Rule R23: only the backlight requests change BL. -/
def Obligations.OnlyBacklightWritesBL : Prop :=
  ∀ (s t : State) (i : Instr), exec i s = .next t → t.bl ≠ s.bl →
    (i = .backlightOff ∧ t.bl = 0) ∨ (i = .backlightOn ∧ t.bl = 1)

/-- Rule R25: after BEGIN and after a backlight request the last thing sent before `Done` is the DISPLAY-CONTROL byte of the
shadow. -/
def Obligations.ShadowIsWhatWasSent : Prop :=
  ∀ (s t : State) (i : Instr), (∃ c l f, i = .beginLcd c l f) ∨ i = .backlightOff ∨ i = .backlightOn →
    s.ready = true → checkOf i s = none → exec i s = .next t →
      ∃ before d c b, t.shadowD = some d ∧ t.shadowC = some c ∧ t.shadowB = some b ∧
        t.trace = before ++ byteEvents s.cfg t.bl 0
          (0x08 ||| d.setWidth 8 <<< 2 ||| c.setWidth 8 <<< 1 ||| b.setWidth 8) ++ [.done 0]

/-- Rule R24: F = 1 only if lines = 1, kept by every request. -/
def Obligations.LargeFontHasOneLine : Prop :=
  ∀ (s t : State) (i : Instr), (s.shadowF = some 1 → s.lines = some 1) → exec i s = .next t →
    t.shadowF = some 1 → t.lines = some 1

/-! ### Rules of the whole machine -/

/-- What no request touches, and what only one request writes (rules R20, R21, R33, R133). -/
def Obligations.RequestFrame : Prop :=
  ∀ (s t : State) (i : Instr), exec i s = .next t →
    t.cfg = s.cfg ∧ t.rst = s.rst ∧ t.ended = s.ended ∧ t.host = s.host ∧
    (t.pinsCfg ≠ s.pinsCfg → i = .initialise ∧ t.pinsCfg = true) ∧
    ((∀ c l f, i ≠ .beginLcd c l f) →
      t.shadowN = s.shadowN ∧ t.shadowF = s.shadowF ∧ t.shadowD = s.shadowD ∧ t.shadowC = s.shadowC ∧
        t.shadowB = s.shadowB ∧ t.shadowID = s.shadowID ∧ t.shadowSH = s.shadowSH ∧ t.cols = s.cols ∧
        t.lines = s.lines)

/-- Rule R21: no step but a reset clears `pins_cfg`. -/
def Obligations.OnlyResetClearsPinsCfg : Prop :=
  ∀ s t : State, step s = .next t → s.pinsCfg = true → t.pinsCfg = false → ∃ rest, s.comingMoves = .assertReset :: rest

/-- Rules R28, R56, R130: except in a reset, which keeps `q`, a step appends events to the trace, and `q` is then the last frame
among them, or what it was where there is none. -/
def Obligations.OutputsShowLastFrame : Prop :=
  ∀ s t : State, step s = .next t →
    (t.q = s.q ∧ ∃ rest, s.comingMoves = .assertReset :: rest) ∨
      ∃ es, t.trace = s.trace ++ es ∧ t.q = (framesOf es).getLast?.or s.q

/-- Rule R86, which the spec marks as derived from rules R80 to R85: a frame with RS = 1 comes only from WRITE_CHAR. -/
def Obligations.DataFramesOnlyFromWriteChar : Prop :=
  ∀ (s t : State) (i : Instr), exec i s = .next t →
    ∃ es, t.trace = s.trace ++ es ∧ ∀ f, .frame f ∈ es → f.getLsbD 1 = true → ∃ v, i = .writeChar v

/-- Rule R86, which the spec marks as derived from rules R80 to R85: every even value is a frame that some request emits. -/
def Obligations.EveryEvenFrameOccurs : Prop :=
  ∀ f : Byte, f.getLsbD 0 = false →
    ∃ (s t : State) (i : Instr), s.Inv ∧ s.ready = true ∧ s.pinsCfg = true ∧ exec i s = .next t ∧
      .frame f ∉ s.trace ∧ .frame f ∈ t.trace

/-- The invariant holds after power-on and reset (rule R40), whatever the parameters. Its clauses on the trace rest on the
empty trace the model starts with (log entry 8). -/
def Obligations.InvariantAtReset : Prop :=
  ∀ p : Params, (State.powerOn p).Inv

/-- Every step keeps the invariant: busy exactly while a request executes or a fault is recorded, a request being executed has
passed its checks, nothing emitted before INITIALIZE, bit 0 of every frame 0, reset values in reset. That `seq` is IDLE in a
faulted state is the model's reading (DEDUCED, log entry 4; rule R181 sets it on acceptance), and that the trace is empty after a
reset is the model's choice (log entry 8). -/
def Obligations.StepKeepsInvariant : Prop :=
  ∀ s t : State, s.Inv → step s = .next t → t.Inv

/-! ### The lines -/

/-- Rule R55, three details of which the spec marks as its own (decision D11): the moves of one SendFrame, and what they
leave, whatever the lines and the shift register were at. The outputs change at the closing latch edge alone (rule R56). -/
def Obligations.SendFrameOnLines : Prop :=
  ∀ (p : PinState) (f : Byte),
    sendFrameMoves f =
        [.latch false, .data (f.getLsbD 7), .clk true, .clk false, .data (f.getLsbD 6), .clk true, .clk false,
          .data (f.getLsbD 5), .clk true, .clk false, .data (f.getLsbD 4), .clk true, .clk false,
          .data (f.getLsbD 3), .clk true, .clk false, .data (f.getLsbD 2), .clk true, .clk false,
          .data (f.getLsbD 1), .clk true, .clk false, .data (f.getLsbD 0), .clk true, .clk false, .latch true] ∧
      p.applyAll (sendFrameMoves f) =
        { latch := true, clk := false, data := f.getLsbD 0, sr := f, q := some f } ∧
      ∀ x ∈ p.path (sendFrameMoves f).dropLast, x.q = p.q

/-- Rules R7, R55, R130: the lines driven as a request's events say leave the outputs that the frame level has. -/
def Obligations.LinesAgreeWithOutputs : Prop :=
  ∀ (s t : State) (i : Instr) (p : PinState), exec i s = .next t → p.q = s.q →
    ∃ es, t.trace = s.trace ++ es ∧ (p.applyAll (es.flatMap Event.lineMoves)).q = t.q

/-! ### The end of a run -/

/-- Rules R8, R186: past the end of a run nothing more is emitted, the outputs hold and the run stays ended, until a reset. That a word
the host presents later in the same run counts as pending is the model's reading (DEDUCED, log entry 29). -/
def Obligations.EndedRunEmitsNothing : Prop :=
  ∀ s t : State, s.Inv → s.final → step s = .next t →
    (∃ rest, s.comingMoves = .assertReset :: rest) ∨ (t.trace = s.trace ∧ t.q = s.q ∧ t.final)
end

