-- ==== Sys2Proof/Laws/Operands.lean ====
section
/-! SUPPORT. The bits of an assembled frame (rules R80, R85) and the nibbles of a value (rule R82). -/

namespace Sys2Proof.Machine

/-- Clearing bit 3 of a frame with enable high gives the frame with enable low (rules R85, R131). -/
theorem enableLow_assembleFrame (nib : Nibble) (rs bl : Bit) :
    enableLow (assembleFrame nib rs bl 1) = assembleFrame nib rs bl 0 := by
  revert nib rs bl; decide

/-- Bit 0 of every assembled frame is 0 (rule R81). -/
theorem assembleFrame_bit0 (nib : Nibble) (rs bl en : Bit) : (assembleFrame nib rs bl en).getLsbD 0 = false := by
  revert nib rs bl en; decide

theorem assembleFrame_rs (nib : Nibble) (rs bl en : Bit) :
    (assembleFrame nib rs bl en).getLsbD 1 = rs.getLsbD 0 := by
  revert nib rs bl en; decide

theorem assembleFrame_bl (nib : Nibble) (rs bl en : Bit) :
    (assembleFrame nib rs bl en).getLsbD 2 = bl.getLsbD 0 := by
  revert nib rs bl en; decide

theorem assembleFrame_en (nib : Nibble) (rs bl en : Bit) :
    (assembleFrame nib rs bl en).getLsbD 3 = en.getLsbD 0 := by
  revert nib rs bl en; decide

/-- The nibble bits of a frame are its nibble (rule R80). -/
theorem assembleFrame_nibble (nib : Nibble) (rs bl en : Bit) :
    (assembleFrame nib rs bl en).extractLsb' 4 4 = nib := by
  revert nib rs bl en; decide

/-- A value is its two nibbles, the high one first (rule R82). -/
theorem highNibble_append_lowNibble (value : Byte) : highNibble value ++ lowNibble value = value := by
  revert value; decide

end Sys2Proof.Machine
end

