-- ==== Sys2Proof/Laws/State.lean ====
section
/-! SUPPORT. One lemma per field per update of State, true by rfl. -/

namespace Sys2Proof.Machine

/-! ### Acceptance (rules R29, R181) -/

@[simp] theorem accept_cfg (s : State) (i : Instr) : (s.accept i).cfg = s.cfg := rfl
@[simp] theorem accept_pinsCfg (s : State) (i : Instr) : (s.accept i).pinsCfg = s.pinsCfg := rfl
@[simp] theorem accept_busy (s : State) (i : Instr) : (s.accept i).busy = true := rfl
@[simp] theorem accept_bl (s : State) (i : Instr) : (s.accept i).bl = s.bl := rfl
@[simp] theorem accept_shadowN (s : State) (i : Instr) : (s.accept i).shadowN = s.shadowN := rfl
@[simp] theorem accept_shadowF (s : State) (i : Instr) : (s.accept i).shadowF = s.shadowF := rfl
@[simp] theorem accept_shadowD (s : State) (i : Instr) : (s.accept i).shadowD = s.shadowD := rfl
@[simp] theorem accept_shadowC (s : State) (i : Instr) : (s.accept i).shadowC = s.shadowC := rfl
@[simp] theorem accept_shadowB (s : State) (i : Instr) : (s.accept i).shadowB = s.shadowB := rfl
@[simp] theorem accept_shadowID (s : State) (i : Instr) : (s.accept i).shadowID = s.shadowID := rfl
@[simp] theorem accept_shadowSH (s : State) (i : Instr) : (s.accept i).shadowSH = s.shadowSH := rfl
@[simp] theorem accept_cols (s : State) (i : Instr) : (s.accept i).cols = s.cols := rfl
@[simp] theorem accept_lines (s : State) (i : Instr) : (s.accept i).lines = s.lines := rfl
@[simp] theorem accept_q (s : State) (i : Instr) : (s.accept i).q = s.q := rfl
@[simp] theorem accept_seq (s : State) (i : Instr) : (s.accept i).seq = .active i 0 := rfl
@[simp] theorem accept_fault (s : State) (i : Instr) : (s.accept i).fault = s.fault := rfl
@[simp] theorem accept_rst (s : State) (i : Instr) : (s.accept i).rst = s.rst := rfl
@[simp] theorem accept_done (s : State) (i : Instr) : (s.accept i).done = false := rfl
@[simp] theorem accept_doneCount (s : State) (i : Instr) : (s.accept i).doneCount = s.doneCount := rfl
@[simp] theorem accept_trace (s : State) (i : Instr) : (s.accept i).trace = s.trace := rfl
@[simp] theorem accept_ended (s : State) (i : Instr) : (s.accept i).ended = s.ended := rfl
@[simp] theorem accept_host (s : State) (i : Instr) : (s.accept i).host = s.host := rfl

/-! ### Taking a model fault (rule R175) -/

@[simp] theorem raise_cfg (s : State) (f : Fault) : (s.raise f).cfg = s.cfg := rfl
@[simp] theorem raise_pinsCfg (s : State) (f : Fault) : (s.raise f).pinsCfg = s.pinsCfg := rfl
@[simp] theorem raise_busy (s : State) (f : Fault) : (s.raise f).busy = true := rfl
@[simp] theorem raise_bl (s : State) (f : Fault) : (s.raise f).bl = s.bl := rfl
@[simp] theorem raise_shadowN (s : State) (f : Fault) : (s.raise f).shadowN = s.shadowN := rfl
@[simp] theorem raise_shadowF (s : State) (f : Fault) : (s.raise f).shadowF = s.shadowF := rfl
@[simp] theorem raise_shadowD (s : State) (f : Fault) : (s.raise f).shadowD = s.shadowD := rfl
@[simp] theorem raise_shadowC (s : State) (f : Fault) : (s.raise f).shadowC = s.shadowC := rfl
@[simp] theorem raise_shadowB (s : State) (f : Fault) : (s.raise f).shadowB = s.shadowB := rfl
@[simp] theorem raise_shadowID (s : State) (f : Fault) : (s.raise f).shadowID = s.shadowID := rfl
@[simp] theorem raise_shadowSH (s : State) (f : Fault) : (s.raise f).shadowSH = s.shadowSH := rfl
@[simp] theorem raise_cols (s : State) (f : Fault) : (s.raise f).cols = s.cols := rfl
@[simp] theorem raise_lines (s : State) (f : Fault) : (s.raise f).lines = s.lines := rfl
@[simp] theorem raise_q (s : State) (f : Fault) : (s.raise f).q = s.q := rfl
@[simp] theorem raise_seq (s : State) (f : Fault) : (s.raise f).seq = .idle := rfl
@[simp] theorem raise_fault (s : State) (f : Fault) : (s.raise f).fault = some f := rfl
@[simp] theorem raise_rst (s : State) (f : Fault) : (s.raise f).rst = s.rst := rfl
@[simp] theorem raise_done (s : State) (f : Fault) : (s.raise f).done = false := rfl
@[simp] theorem raise_doneCount (s : State) (f : Fault) : (s.raise f).doneCount = s.doneCount := rfl
@[simp] theorem raise_trace (s : State) (f : Fault) : (s.raise f).trace = s.trace := rfl
@[simp] theorem raise_ended (s : State) (f : Fault) : (s.raise f).ended = s.ended := rfl
@[simp] theorem raise_host (s : State) (f : Fault) : (s.raise f).host = s.host := rfl

/-! ### Reset (rules R40, R190) -/

@[simp] theorem takeReset_cfg (s : State) : (s.takeReset).cfg = s.cfg := rfl
@[simp] theorem takeReset_pinsCfg (s : State) : (s.takeReset).pinsCfg = false := rfl
@[simp] theorem takeReset_busy (s : State) : (s.takeReset).busy = false := rfl
@[simp] theorem takeReset_bl (s : State) : (s.takeReset).bl = s.cfg.blReset := rfl
@[simp] theorem takeReset_shadowN (s : State) : (s.takeReset).shadowN = none := rfl
@[simp] theorem takeReset_shadowF (s : State) : (s.takeReset).shadowF = none := rfl
@[simp] theorem takeReset_shadowD (s : State) : (s.takeReset).shadowD = none := rfl
@[simp] theorem takeReset_shadowC (s : State) : (s.takeReset).shadowC = none := rfl
@[simp] theorem takeReset_shadowB (s : State) : (s.takeReset).shadowB = none := rfl
@[simp] theorem takeReset_shadowID (s : State) : (s.takeReset).shadowID = none := rfl
@[simp] theorem takeReset_shadowSH (s : State) : (s.takeReset).shadowSH = none := rfl
@[simp] theorem takeReset_cols (s : State) : (s.takeReset).cols = none := rfl
@[simp] theorem takeReset_lines (s : State) : (s.takeReset).lines = none := rfl
@[simp] theorem takeReset_q (s : State) : (s.takeReset).q = s.q := rfl
@[simp] theorem takeReset_seq (s : State) : (s.takeReset).seq = .idle := rfl
@[simp] theorem takeReset_fault (s : State) : (s.takeReset).fault = none := rfl
@[simp] theorem takeReset_rst (s : State) : (s.takeReset).rst = true := rfl
@[simp] theorem takeReset_done (s : State) : (s.takeReset).done = false := rfl
@[simp] theorem takeReset_doneCount (s : State) : (s.takeReset).doneCount = s.doneCount := rfl
@[simp] theorem takeReset_trace (s : State) : (s.takeReset).trace = [] := rfl
@[simp] theorem takeReset_ended (s : State) : (s.takeReset).ended = s.ended ++ [⟨s.trace, s.seq, s.fault⟩] := rfl
@[simp] theorem takeReset_host (s : State) : (s.takeReset).host = s.host := rfl

/-! ### SendFrame (rule R130) -/

@[simp] theorem perform_sendFrame_cfg (s : State) (f : Byte) : (s.perform (.sendFrame f)).cfg = s.cfg := rfl
@[simp] theorem perform_sendFrame_pinsCfg (s : State) (f : Byte) : (s.perform (.sendFrame f)).pinsCfg = s.pinsCfg := rfl
@[simp] theorem perform_sendFrame_busy (s : State) (f : Byte) : (s.perform (.sendFrame f)).busy = s.busy := rfl
@[simp] theorem perform_sendFrame_bl (s : State) (f : Byte) : (s.perform (.sendFrame f)).bl = s.bl := rfl
@[simp] theorem perform_sendFrame_shadowN (s : State) (f : Byte) : (s.perform (.sendFrame f)).shadowN = s.shadowN := rfl
@[simp] theorem perform_sendFrame_shadowF (s : State) (f : Byte) : (s.perform (.sendFrame f)).shadowF = s.shadowF := rfl
@[simp] theorem perform_sendFrame_shadowD (s : State) (f : Byte) : (s.perform (.sendFrame f)).shadowD = s.shadowD := rfl
@[simp] theorem perform_sendFrame_shadowC (s : State) (f : Byte) : (s.perform (.sendFrame f)).shadowC = s.shadowC := rfl
@[simp] theorem perform_sendFrame_shadowB (s : State) (f : Byte) : (s.perform (.sendFrame f)).shadowB = s.shadowB := rfl
@[simp] theorem perform_sendFrame_shadowID (s : State) (f : Byte) : (s.perform (.sendFrame f)).shadowID = s.shadowID := rfl
@[simp] theorem perform_sendFrame_shadowSH (s : State) (f : Byte) : (s.perform (.sendFrame f)).shadowSH = s.shadowSH := rfl
@[simp] theorem perform_sendFrame_cols (s : State) (f : Byte) : (s.perform (.sendFrame f)).cols = s.cols := rfl
@[simp] theorem perform_sendFrame_lines (s : State) (f : Byte) : (s.perform (.sendFrame f)).lines = s.lines := rfl
@[simp] theorem perform_sendFrame_q (s : State) (f : Byte) : (s.perform (.sendFrame f)).q = some f := rfl
@[simp] theorem perform_sendFrame_seq (s : State) (f : Byte) : (s.perform (.sendFrame f)).seq = s.seq.next := rfl
@[simp] theorem perform_sendFrame_fault (s : State) (f : Byte) : (s.perform (.sendFrame f)).fault = s.fault := rfl
@[simp] theorem perform_sendFrame_rst (s : State) (f : Byte) : (s.perform (.sendFrame f)).rst = s.rst := rfl
@[simp] theorem perform_sendFrame_done (s : State) (f : Byte) : (s.perform (.sendFrame f)).done = s.done := rfl
@[simp] theorem perform_sendFrame_doneCount (s : State) (f : Byte) : (s.perform (.sendFrame f)).doneCount = s.doneCount := rfl
@[simp] theorem perform_sendFrame_trace (s : State) (f : Byte) : (s.perform (.sendFrame f)).trace = s.trace ++ [.frame f] := rfl
@[simp] theorem perform_sendFrame_ended (s : State) (f : Byte) : (s.perform (.sendFrame f)).ended = s.ended := rfl
@[simp] theorem perform_sendFrame_host (s : State) (f : Byte) : (s.perform (.sendFrame f)).host = s.host := rfl

/-! ### Wait (rule R10) -/

@[simp] theorem perform_wait_cfg (s : State) (d : Nat) : (s.perform (.wait d)).cfg = s.cfg := rfl
@[simp] theorem perform_wait_pinsCfg (s : State) (d : Nat) : (s.perform (.wait d)).pinsCfg = s.pinsCfg := rfl
@[simp] theorem perform_wait_busy (s : State) (d : Nat) : (s.perform (.wait d)).busy = s.busy := rfl
@[simp] theorem perform_wait_bl (s : State) (d : Nat) : (s.perform (.wait d)).bl = s.bl := rfl
@[simp] theorem perform_wait_shadowN (s : State) (d : Nat) : (s.perform (.wait d)).shadowN = s.shadowN := rfl
@[simp] theorem perform_wait_shadowF (s : State) (d : Nat) : (s.perform (.wait d)).shadowF = s.shadowF := rfl
@[simp] theorem perform_wait_shadowD (s : State) (d : Nat) : (s.perform (.wait d)).shadowD = s.shadowD := rfl
@[simp] theorem perform_wait_shadowC (s : State) (d : Nat) : (s.perform (.wait d)).shadowC = s.shadowC := rfl
@[simp] theorem perform_wait_shadowB (s : State) (d : Nat) : (s.perform (.wait d)).shadowB = s.shadowB := rfl
@[simp] theorem perform_wait_shadowID (s : State) (d : Nat) : (s.perform (.wait d)).shadowID = s.shadowID := rfl
@[simp] theorem perform_wait_shadowSH (s : State) (d : Nat) : (s.perform (.wait d)).shadowSH = s.shadowSH := rfl
@[simp] theorem perform_wait_cols (s : State) (d : Nat) : (s.perform (.wait d)).cols = s.cols := rfl
@[simp] theorem perform_wait_lines (s : State) (d : Nat) : (s.perform (.wait d)).lines = s.lines := rfl
@[simp] theorem perform_wait_q (s : State) (d : Nat) : (s.perform (.wait d)).q = s.q := rfl
@[simp] theorem perform_wait_seq (s : State) (d : Nat) : (s.perform (.wait d)).seq = s.seq.next := rfl
@[simp] theorem perform_wait_fault (s : State) (d : Nat) : (s.perform (.wait d)).fault = s.fault := rfl
@[simp] theorem perform_wait_rst (s : State) (d : Nat) : (s.perform (.wait d)).rst = s.rst := rfl
@[simp] theorem perform_wait_done (s : State) (d : Nat) : (s.perform (.wait d)).done = s.done := rfl
@[simp] theorem perform_wait_doneCount (s : State) (d : Nat) : (s.perform (.wait d)).doneCount = s.doneCount := rfl
@[simp] theorem perform_wait_trace (s : State) (d : Nat) : (s.perform (.wait d)).trace = s.trace ++ [.delay d] := rfl
@[simp] theorem perform_wait_ended (s : State) (d : Nat) : (s.perform (.wait d)).ended = s.ended := rfl
@[simp] theorem perform_wait_host (s : State) (d : Nat) : (s.perform (.wait d)).host = s.host := rfl

/-! ### Done (rules R10, R29) -/

@[simp] theorem perform_done_cfg (s : State) (n : Byte) : (s.perform (.done n)).cfg = s.cfg := rfl
@[simp] theorem perform_done_pinsCfg (s : State) (n : Byte) : (s.perform (.done n)).pinsCfg = s.pinsCfg := rfl
@[simp] theorem perform_done_busy (s : State) (n : Byte) : (s.perform (.done n)).busy = false := rfl
@[simp] theorem perform_done_bl (s : State) (n : Byte) : (s.perform (.done n)).bl = s.bl := rfl
@[simp] theorem perform_done_shadowN (s : State) (n : Byte) : (s.perform (.done n)).shadowN = s.shadowN := rfl
@[simp] theorem perform_done_shadowF (s : State) (n : Byte) : (s.perform (.done n)).shadowF = s.shadowF := rfl
@[simp] theorem perform_done_shadowD (s : State) (n : Byte) : (s.perform (.done n)).shadowD = s.shadowD := rfl
@[simp] theorem perform_done_shadowC (s : State) (n : Byte) : (s.perform (.done n)).shadowC = s.shadowC := rfl
@[simp] theorem perform_done_shadowB (s : State) (n : Byte) : (s.perform (.done n)).shadowB = s.shadowB := rfl
@[simp] theorem perform_done_shadowID (s : State) (n : Byte) : (s.perform (.done n)).shadowID = s.shadowID := rfl
@[simp] theorem perform_done_shadowSH (s : State) (n : Byte) : (s.perform (.done n)).shadowSH = s.shadowSH := rfl
@[simp] theorem perform_done_cols (s : State) (n : Byte) : (s.perform (.done n)).cols = s.cols := rfl
@[simp] theorem perform_done_lines (s : State) (n : Byte) : (s.perform (.done n)).lines = s.lines := rfl
@[simp] theorem perform_done_q (s : State) (n : Byte) : (s.perform (.done n)).q = s.q := rfl
@[simp] theorem perform_done_seq (s : State) (n : Byte) : (s.perform (.done n)).seq = .idle := rfl
@[simp] theorem perform_done_fault (s : State) (n : Byte) : (s.perform (.done n)).fault = s.fault := rfl
@[simp] theorem perform_done_rst (s : State) (n : Byte) : (s.perform (.done n)).rst = s.rst := rfl
@[simp] theorem perform_done_done (s : State) (n : Byte) : (s.perform (.done n)).done = true := rfl
@[simp] theorem perform_done_doneCount (s : State) (n : Byte) : (s.perform (.done n)).doneCount = n := rfl
@[simp] theorem perform_done_trace (s : State) (n : Byte) : (s.perform (.done n)).trace = s.trace ++ [.done n] := rfl
@[simp] theorem perform_done_ended (s : State) (n : Byte) : (s.perform (.done n)).ended = s.ended := rfl
@[simp] theorem perform_done_host (s : State) (n : Byte) : (s.perform (.done n)).host = s.host := rfl

/-! ### Set (rule R29): the write, and the sequencer's move -/

theorem perform_set (s : State) (w : Write) : s.perform (.set w) = { s.write w with seq := s.seq.next } := rfl

@[simp] theorem write_cfg (w : Write) (s : State) : (s.write w).cfg = s.cfg := by cases w <;> rfl
@[simp] theorem write_busy (w : Write) (s : State) : (s.write w).busy = s.busy := by cases w <;> rfl
@[simp] theorem write_q (w : Write) (s : State) : (s.write w).q = s.q := by cases w <;> rfl
@[simp] theorem write_seq (w : Write) (s : State) : (s.write w).seq = s.seq := by cases w <;> rfl
@[simp] theorem write_fault (w : Write) (s : State) : (s.write w).fault = s.fault := by cases w <;> rfl
@[simp] theorem write_rst (w : Write) (s : State) : (s.write w).rst = s.rst := by cases w <;> rfl
@[simp] theorem write_done (w : Write) (s : State) : (s.write w).done = s.done := by cases w <;> rfl
@[simp] theorem write_doneCount (w : Write) (s : State) : (s.write w).doneCount = s.doneCount := by cases w <;> rfl
@[simp] theorem write_trace (w : Write) (s : State) : (s.write w).trace = s.trace := by cases w <;> rfl
@[simp] theorem write_ended (w : Write) (s : State) : (s.write w).ended = s.ended := by cases w <;> rfl
@[simp] theorem write_host (w : Write) (s : State) : (s.write w).host = s.host := by cases w <;> rfl
@[simp] theorem perform_set_cfg (s : State) (w : Write) : (s.perform (.set w)).cfg = s.cfg := by cases w <;> rfl
@[simp] theorem perform_set_busy (s : State) (w : Write) : (s.perform (.set w)).busy = s.busy := by cases w <;> rfl
@[simp] theorem perform_set_q (s : State) (w : Write) : (s.perform (.set w)).q = s.q := by cases w <;> rfl
@[simp] theorem perform_set_fault (s : State) (w : Write) : (s.perform (.set w)).fault = s.fault := by cases w <;> rfl
@[simp] theorem perform_set_rst (s : State) (w : Write) : (s.perform (.set w)).rst = s.rst := by cases w <;> rfl
@[simp] theorem perform_set_done (s : State) (w : Write) : (s.perform (.set w)).done = s.done := by cases w <;> rfl
@[simp] theorem perform_set_doneCount (s : State) (w : Write) : (s.perform (.set w)).doneCount = s.doneCount := by cases w <;> rfl
@[simp] theorem perform_set_trace (s : State) (w : Write) : (s.perform (.set w)).trace = s.trace := by cases w <;> rfl
@[simp] theorem perform_set_ended (s : State) (w : Write) : (s.perform (.set w)).ended = s.ended := by cases w <;> rfl
@[simp] theorem perform_set_host (s : State) (w : Write) : (s.perform (.set w)).host = s.host := by cases w <;> rfl
@[simp] theorem perform_set_seq (s : State) (w : Write) : (s.perform (.set w)).seq = s.seq.next := rfl

@[simp] theorem seq_next_idle : Seq.idle.next = .idle := rfl
@[simp] theorem seq_next_active (i : Instr) (k : Nat) : (Seq.active i k).next = .active i (k + 1) := rfl

/-! ### The host has made a move (rule R181) -/

@[simp] theorem afterMove_cfg (s : State) (rest : List HostMove) : (s.afterMove rest).cfg = s.cfg := rfl
@[simp] theorem afterMove_pinsCfg (s : State) (rest : List HostMove) : (s.afterMove rest).pinsCfg = s.pinsCfg := rfl
@[simp] theorem afterMove_busy (s : State) (rest : List HostMove) : (s.afterMove rest).busy = s.busy := rfl
@[simp] theorem afterMove_bl (s : State) (rest : List HostMove) : (s.afterMove rest).bl = s.bl := rfl
@[simp] theorem afterMove_shadowN (s : State) (rest : List HostMove) : (s.afterMove rest).shadowN = s.shadowN := rfl
@[simp] theorem afterMove_shadowF (s : State) (rest : List HostMove) : (s.afterMove rest).shadowF = s.shadowF := rfl
@[simp] theorem afterMove_shadowD (s : State) (rest : List HostMove) : (s.afterMove rest).shadowD = s.shadowD := rfl
@[simp] theorem afterMove_shadowC (s : State) (rest : List HostMove) : (s.afterMove rest).shadowC = s.shadowC := rfl
@[simp] theorem afterMove_shadowB (s : State) (rest : List HostMove) : (s.afterMove rest).shadowB = s.shadowB := rfl
@[simp] theorem afterMove_shadowID (s : State) (rest : List HostMove) : (s.afterMove rest).shadowID = s.shadowID := rfl
@[simp] theorem afterMove_shadowSH (s : State) (rest : List HostMove) : (s.afterMove rest).shadowSH = s.shadowSH := rfl
@[simp] theorem afterMove_cols (s : State) (rest : List HostMove) : (s.afterMove rest).cols = s.cols := rfl
@[simp] theorem afterMove_lines (s : State) (rest : List HostMove) : (s.afterMove rest).lines = s.lines := rfl
@[simp] theorem afterMove_q (s : State) (rest : List HostMove) : (s.afterMove rest).q = s.q := rfl
@[simp] theorem afterMove_seq (s : State) (rest : List HostMove) : (s.afterMove rest).seq = s.seq := rfl
@[simp] theorem afterMove_fault (s : State) (rest : List HostMove) : (s.afterMove rest).fault = s.fault := rfl
@[simp] theorem afterMove_rst (s : State) (rest : List HostMove) : (s.afterMove rest).rst = s.rst := rfl
@[simp] theorem afterMove_done (s : State) (rest : List HostMove) : (s.afterMove rest).done = s.done := rfl
@[simp] theorem afterMove_doneCount (s : State) (rest : List HostMove) : (s.afterMove rest).doneCount = s.doneCount := rfl
@[simp] theorem afterMove_trace (s : State) (rest : List HostMove) : (s.afterMove rest).trace = s.trace := rfl
@[simp] theorem afterMove_ended (s : State) (rest : List HostMove) : (s.afterMove rest).ended = s.ended := rfl
@[simp] theorem afterMove_host (s : State) (rest : List HostMove) : (s.afterMove rest).host = rest := rfl
@[simp] theorem afterMove_ready (s : State) (rest : List HostMove) : (s.afterMove rest).ready = s.ready := rfl

end Sys2Proof.Machine
end

