-- ==== Sys2Proof/Laws/Ops.lean ====
section
/-! SUPPORT. What each shared operation can do, said once: serving a request, a list of actions, the actions of a
transmission, taking a fault. -/

namespace Sys2Proof.Machine

/-! ### The sequencer's position after several actions -/

/-- `k` moved on by `n` (rule R29). -/
def Seq.skip (n : Nat) : Seq → Seq
  | .idle => .idle
  | .active i k => .active i (k + n)

@[simp] theorem seq_skip_idle (n : Nat) : Seq.idle.skip n = .idle := rfl

@[simp] theorem seq_skip_active (n : Nat) (i : Instr) (k : Nat) : (Seq.active i k).skip n = .active i (k + n) := rfl

theorem seq_next_eq_skip (p : Seq) : p.next = p.skip 1 := by cases p <;> rfl

theorem seq_skip_zero (p : Seq) : p.skip 0 = p := by cases p <;> rfl

theorem seq_skip_skip (m n : Nat) (p : Seq) : (p.skip m).skip n = p.skip (m + n) := by
  cases p <;> simp [Nat.add_assoc]

/-! ### Lists of actions -/

@[simp] theorem performAll_nil (s : State) : s.performAll [] = s := rfl

@[simp] theorem performAll_cons (s : State) (a : Action) (as : List Action) :
    s.performAll (a :: as) = (s.perform a).performAll as := rfl

theorem performAll_append (s : State) (as bs : List Action) :
    s.performAll (as ++ bs) = (s.performAll as).performAll bs := by
  induction as generalizing s with
  | nil => rfl
  | cons a as ih => exact ih (s.perform a)

/-- The event an action emits, if any (rule R29). -/
def Action.events : Action → List Event
  | .set _ => []
  | .sendFrame f => [.frame f]
  | .wait d => [.delay d]
  | .done n => [.done n]

/-- A list of actions appends its events to the trace, in order (rule R58). -/
theorem performAll_trace (s : State) (as : List Action) :
    (s.performAll as).trace = s.trace ++ as.flatMap Action.events := by
  induction as generalizing s with
  | nil => simp
  | cons a as ih =>
    rw [performAll_cons, ih]
    cases a <;> simp [Action.events]

/-- What no action touches. -/
theorem performAll_keeps (s : State) (as : List Action) :
    (s.performAll as).cfg = s.cfg ∧ (s.performAll as).fault = s.fault ∧ (s.performAll as).rst = s.rst ∧
      (s.performAll as).ended = s.ended ∧ (s.performAll as).host = s.host := by
  induction as generalizing s with
  | nil => simp
  | cons a as ih =>
    rw [performAll_cons]
    obtain ⟨h1, h2, h3, h4, h5⟩ := ih (s.perform a)
    rw [h1, h2, h3, h4, h5]
    cases a <;> simp

/-- A run of equal waits only emits its delays (rule R59). -/
theorem performAll_waits (s : State) (n d : Nat) :
    s.performAll (List.replicate n (.wait d)) =
      { s with trace := s.trace ++ List.replicate n (.delay d), seq := s.seq.skip n } := by
  induction n generalizing s with
  | zero => simp [seq_skip_zero]
  | succ n ih =>
    rw [List.replicate_succ, performAll_cons, ih]
    simp [State.perform, seq_next_eq_skip, seq_skip_skip, List.replicate_succ, Nat.add_comm]

/-- One slot of a transmission (rules R85, R131). -/
theorem performAll_slot (s : State) (tEn : Nat) (bl rs : Bit) (nib : Nibble) :
    s.performAll (slotActions tEn bl rs nib) =
      { s with
        q := some (assembleFrame nib rs bl 0)
        trace := s.trace ++ [.frame (assembleFrame nib rs bl 1), .delay tEn, .frame (assembleFrame nib rs bl 0)]
        seq := s.seq.skip 3 } := by
  unfold slotActions
  rw [enableLow_assembleFrame]
  simp [State.perform, seq_next_eq_skip, seq_skip_skip]

/-- A transmission in mode INIT: one slot, then the settle wait (rules R87, R131). -/
theorem performAll_transmit_init (s : State) (p : Params) (bl : Bit) (value : Byte) :
    s.performAll (transmitActions p bl value .init) =
      { s with
        q := some (assembleFrame (lowNibble value) 0 bl 0)
        trace := s.trace ++ nibbleEvents p bl (lowNibble value)
        seq := s.seq.skip 4 } := by
  simp [transmitActions, slotNibbles, registerSelect, performAll_append, performAll_slot, State.perform,
    seq_next_eq_skip, seq_skip_skip, nibbleEvents, slotEvents, Config.tSettle]

/-- A transmission in mode COMMAND (rule R131). -/
theorem performAll_transmit_command (s : State) (p : Params) (bl : Bit) (value : Byte) :
    s.performAll (transmitActions p bl value .command) =
      { s with
        q := some (assembleFrame (lowNibble value) 0 bl 0)
        trace := s.trace ++ byteEvents p bl 0 value
        seq := s.seq.skip 7 } := by
  simp [transmitActions, slotNibbles, registerSelect, performAll_append, performAll_slot, State.perform,
    seq_next_eq_skip, seq_skip_skip, byteEvents, slotEvents, Config.tSettle]

/-- A transmission in mode CHARACTER (rule R131). -/
theorem performAll_transmit_character (s : State) (p : Params) (bl : Bit) (value : Byte) :
    s.performAll (transmitActions p bl value .character) =
      { s with
        q := some (assembleFrame (lowNibble value) 1 bl 0)
        trace := s.trace ++ byteEvents p bl 1 value
        seq := s.seq.skip 7 } := by
  simp [transmitActions, slotNibbles, registerSelect, performAll_append, performAll_slot, State.perform,
    seq_next_eq_skip, seq_skip_skip, byteEvents, slotEvents, Config.tSettle]

/-- BEGIN steps 2 to 5 (rules R91, R101). -/
theorem performAll_bringUp (s : State) (p : Params) (bl : Bit) :
    s.performAll (bringUpActions p bl) =
      { s with
        q := some (assembleFrame 0x2 0 bl 0)
        trace := s.trace ++
          (nibbleEvents p bl 0x3 ++ [.delay p.tInit1] ++ nibbleEvents p bl 0x3 ++ [.delay p.tInit2]
            ++ nibbleEvents p bl 0x3 ++ [.delay p.tInit3] ++ nibbleEvents p bl 0x2 ++ [.delay p.tInit4])
        seq := s.seq.skip 20 } := by
  have h3 : lowNibble bringUpByte = 0x3 := by decide
  have h2 : lowNibble fourBitByte = 0x2 := by decide
  simp only [bringUpActions, performAll_append, performAll_transmit_init, performAll_cons, performAll_nil, h3, h2]
  simp [State.perform, seq_next_eq_skip, seq_skip_skip]

/-- BEGIN steps 6 to 10 (rules R101, R105, R196). -/
theorem performAll_setup (s : State) (p : Params) (bl twoLine font : Bit) :
    s.performAll (setupActions p bl twoLine font) =
      { s with
        shadowN := some twoLine
        shadowF := some font
        shadowD := some 1
        shadowC := some 0
        shadowB := some 0
        shadowID := some 1
        shadowSH := some 0
        q := some (assembleFrame 0xC 0 bl 0)
        trace := s.trace ++
          (byteEvents p bl 0 (functionSetByte twoLine font) ++ byteEvents p bl 0 0x08
            ++ byteEvents p bl 0 0x01 ++ [.delay p.tClear] ++ byteEvents p bl 0 0x06 ++ byteEvents p bl 0 0x0C)
        seq := s.seq.skip 46 } := by
  have h8 : displayControlByte 0 0 0 = 0x08 := by decide
  have hc : displayControlByte 1 0 0 = 0x0C := by decide
  have h6 : entryModeByte 1 0 = 0x06 := by decide
  have hl : lowNibble 0x0C = 0xC := by decide
  simp only [setupActions, clearDisplayByte, performAll_append, performAll_transmit_command, performAll_cons,
    performAll_nil, h8, hc, h6, hl]
  simp [State.perform, State.write, seq_next_eq_skip, seq_skip_skip]

/-! ### Serving a request -/

/-- Every meaning serves its request with its checks and its action list (rules R106, R178). -/
theorem exec_eq_serve (i : Instr) (s : State) : exec i s = s.serve i (checkOf i s) (actionsOf i s) := by
  cases i <;> rfl

/-- Everything serving a request can do (rules R60, R175, R181). -/
theorem serve_cases {s t : State} {i : Instr} {check : Option Fault} {as : List Action}
    (h : s.serve i check as = .next t) :
    (s.ready = false ∧ t = s) ∨
      (s.ready = true ∧ ∃ f, check = some f ∧ t = s.raise f) ∨
      (s.ready = true ∧ check = none ∧ t = (s.accept i).performAll as) := by
  unfold State.serve at h
  cases hr : s.ready
  · rw [hr] at h
    exact .inl ⟨rfl, (Host.Outcome.next.inj h).symm⟩
  · rw [hr] at h
    cases check with
    | some f => exact .inr (.inl ⟨rfl, f, rfl, (Host.Outcome.next.inj h).symm⟩)
    | none => exact .inr (.inr ⟨rfl, rfl, (Host.Outcome.next.inj h).symm⟩)

theorem serve_waiting {s : State} (i : Instr) (check : Option Fault) (as : List Action) (hr : s.ready = false) :
    s.serve i check as = .next s := by
  simp [State.serve, hr]

theorem serve_fault {s : State} (i : Instr) (f : Fault) (as : List Action) (hr : s.ready = true) :
    s.serve i (some f) as = .next (s.raise f) := by
  simp [State.serve, hr]

theorem serve_runs {s : State} (i : Instr) (as : List Action) (hr : s.ready = true) :
    s.serve i none as = .next ((s.accept i).performAll as) := by
  simp [State.serve, hr]

/-- No request ends in a fault or a refusal of the step: a fault is recorded in the next state (log entry 4). -/
theorem exec_is_next (i : Instr) (s : State) : ∃ t, exec i s = .next t := by
  rw [exec_eq_serve]
  cases hr : s.ready
  · exact ⟨s, serve_waiting i _ _ hr⟩
  · cases hc : checkOf i s with
    | some f => exact ⟨_, serve_fault i f _ hr⟩
    | none => exact ⟨_, serve_runs i _ hr⟩

/-! ### The shared checks -/

theorem configuredCheck_eq_none_iff (i : Instr) (s : State) : configuredCheck i s = none ↔ s.pinsCfg = true := by
  simp [configuredCheck]

theorem firstFault_eq_none_iff (a b : Option Fault) : firstFault a b = none ↔ a = none ∧ b = none := by
  cases a <;> simp [firstFault]

/-- The display-control shadow can be read exactly where all three of its elements have been written (rule R11). -/
theorem displayShadowCheck_eq_none_iff (i : Instr) (s : State) :
    displayShadowCheck i s = none ↔ s.shadowD ≠ none ∧ s.shadowC ≠ none ∧ s.shadowB ≠ none := by
  unfold displayShadowCheck
  split
  · simp_all
  · split
    · simp_all
    · split <;> simp_all

end Sys2Proof.Machine
end

