-- ==== Sys2Proof/Laws/Actions.lean ====
section
/-! SUPPORT. The action lists of the requests (rules R29, R106): what stands in them, and that a request's list and checks stay
the same while the request runs, so that the position `(req, k)` is all the sequencer needs. -/

namespace Sys2Proof.Machine

/-! ### What the list and the checks read -/

theorem actionsOf_host (i : Instr) (s : State) (h : List HostMove) : actionsOf i (s.afterMove h) = actionsOf i s := by
  cases i <;> rfl

theorem checkOf_host (i : Instr) (s : State) (h : List HostMove) : checkOf i (s.afterMove h) = checkOf i s := by
  cases i <;> rfl

theorem actionsOf_accept (i j : Instr) (s : State) : actionsOf i (s.accept j) = actionsOf i s := by
  cases i <;> rfl

theorem checkOf_accept (i j : Instr) (s : State) : checkOf i (s.accept j) = checkOf i s := by
  cases i <;> rfl

/-- A list reads the parameters, BL (unless its request writes BL), and the display-control shadow (for a backlight
request). -/
theorem actionsOf_congr (i : Instr) (s t : State) (hcfg : s.cfg = t.cfg)
    (hbl : i ≠ .backlightOff ∧ i ≠ .backlightOn → s.bl = t.bl)
    (hdc : i = .backlightOff ∨ i = .backlightOn →
      s.shadowD = t.shadowD ∧ s.shadowC = t.shadowC ∧ s.shadowB = t.shadowB) :
    actionsOf i s = actionsOf i t := by
  cases i <;>
    simp_all [actionsOf, beginLcdActions, initNibbleActions, commandActions, writeCharActions, backlightActions,
      shadowedDisplayControl]

/-! ### What stands in a list -/

/-- The writes a request may make (rules R100, R101, R160, R161). -/
def mayWrite (i : Instr) (w : Write) : Prop :=
  match i, w with
  | .initialise, .pinsCfg => True
  | .beginLcd _ _ _, .bl _ => False
  | .beginLcd _ _ _, .pinsCfg => False
  | .beginLcd _ _ _, _ => True
  | .backlightOff, .bl _ => True
  | .backlightOn, .bl _ => True
  | _, _ => False

/-- An action of a request that is not its `Done`: a wait, a frame whose bit 0 is 0 (rule R81), or a write of the request. -/
def inBody (i : Instr) (a : Action) : Prop :=
  (∃ d, a = .wait d) ∨ (∃ f, a = .sendFrame f ∧ f.getLsbD 0 = false) ∨ ∃ w, a = .set w ∧ mayWrite i w

theorem inBody_of_mem_transmit {i : Instr} {p : Params} {bl : Bit} {v : Byte} {m : Mode} {a : Action}
    (h : a ∈ transmitActions p bl v m) : inBody i a := by
  unfold transmitActions at h
  simp only [List.mem_append, List.mem_flatMap, List.mem_singleton] at h
  rcases h with ⟨n, -, h⟩ | h
  · simp only [slotActions, enableLow_assembleFrame, List.mem_cons, List.not_mem_nil, or_false] at h
    rcases h with h | h | h
    · exact .inr (.inl ⟨_, h, assembleFrame_bit0 ..⟩)
    · exact .inl ⟨_, h⟩
    · exact .inr (.inl ⟨_, h, assembleFrame_bit0 ..⟩)
  · exact .inl ⟨_, h⟩

theorem inBody_not_done {i : Instr} {a : Action} (h : inBody i a) (n : Byte) : a ≠ .done n := by
  rintro rfl
  rcases h with ⟨d, h⟩ | ⟨f, h, -⟩ | ⟨w, h, -⟩ <;> cases h

/-- Where the display-control shadow is written, a backlight request's list is its write and one transmission. -/
theorem backlightActions_eq (level : Bit) (s : State) (h : s.shadowD ≠ none ∧ s.shadowC ≠ none ∧ s.shadowB ≠ none) :
    ∃ byte, backlightActions level s =
      (.set (.bl level) :: transmitActions s.cfg level byte .command) ++ [.done 0] := by
  obtain ⟨d, hd⟩ := Option.ne_none_iff_exists'.1 h.1
  obtain ⟨c, hc⟩ := Option.ne_none_iff_exists'.1 h.2.1
  obtain ⟨b, hb⟩ := Option.ne_none_iff_exists'.1 h.2.2
  exact ⟨displayControlByte d c b, by simp [backlightActions, shadowedDisplayControl, hd, hc, hb]⟩

/-- The list of a request that passed its checks is its body and then one `Done` (rule R107). -/
theorem actionsOf_shape (i : Instr) (s : State) (hc : checkOf i s = none) :
    ∃ body n, actionsOf i s = body ++ [.done n] ∧ ∀ a ∈ body, inBody i a := by
  have backlight : ∀ (i : Instr) (level : Bit), mayWrite i (.bl level) → backlightCheck i s = none →
      ∃ body n, backlightActions level s = body ++ [.done n] ∧ ∀ a ∈ body, inBody i a := by
    intro i level hw hb
    obtain ⟨byte, he⟩ :=
      backlightActions_eq level s ((displayShadowCheck_eq_none_iff i s).1 ((firstFault_eq_none_iff _ _).1 hb).2)
    refine ⟨_, 0, he, fun a ha => ?_⟩
    rcases List.mem_cons.1 ha with rfl | ha
    · exact .inr (.inr ⟨_, rfl, hw⟩)
    · exact inBody_of_mem_transmit ha
  cases i with
  | initialise =>
    refine ⟨[.set .pinsCfg, .sendFrame 0], 0, rfl, fun a ha => ?_⟩
    simp only [List.mem_cons, List.not_mem_nil, or_false] at ha
    rcases ha with rfl | rfl
    · exact .inr (.inr ⟨_, rfl, trivial⟩)
    · exact .inr (.inl ⟨_, rfl, by decide⟩)
  | beginLcd cols lines font =>
    refine ⟨_, 0, rfl, fun a ha => ?_⟩
    simp only [powerOnWaitActions, bringUpActions, setupActions, List.mem_append, List.mem_cons, List.not_mem_nil,
      or_false, List.mem_replicate, or_assoc] at ha
    rcases ha with rfl | rfl | ⟨-, rfl⟩ | ha | rfl | ha | rfl | ha | rfl | ha | rfl | rfl | rfl | ha | rfl | rfl | rfl |
      ha | ha | rfl | rfl | rfl | ha | rfl | rfl | rfl | ha
    all_goals first
      | exact inBody_of_mem_transmit ha
      | exact .inl ⟨_, rfl⟩
      | exact .inr (.inr ⟨_, rfl, trivial⟩)
  | initNibble value => exact ⟨_, 0, rfl, fun a ha => inBody_of_mem_transmit ha⟩
  | command value => exact ⟨_, 0, rfl, fun a ha => inBody_of_mem_transmit ha⟩
  | writeChar value => exact ⟨_, 1, rfl, fun a ha => inBody_of_mem_transmit ha⟩
  | backlightOff => exact backlight .backlightOff 0 trivial hc
  | backlightOn => exact backlight .backlightOn 1 trivial hc

/-- The `k`-th action of a request's list is its `Done` exactly at the end. -/
theorem getElem?_actionsOf {i : Instr} {s : State} (hc : checkOf i s = none) {k : Nat} {a : Action}
    (ha : (actionsOf i s)[k]? = some a) :
    (inBody i a ∧ k + 1 < (actionsOf i s).length) ∨ ((∃ n, a = .done n) ∧ k + 1 = (actionsOf i s).length) := by
  obtain ⟨body, n, he, hb⟩ := actionsOf_shape i s hc
  rw [he] at ha ⊢
  rcases Nat.lt_or_ge k body.length with hk | hk
  · rw [List.getElem?_append_left hk] at ha
    exact .inl ⟨hb a (List.mem_of_getElem? ha), by simp; omega⟩
  · rw [List.getElem?_append_right hk] at ha
    have hk0 : k - body.length = 0 := by
      have := (List.getElem?_eq_some_iff.1 ha).1
      simp at this
      omega
    rw [hk0] at ha
    simp at ha
    exact .inr ⟨⟨n, ha.symm⟩, by simp; omega⟩

/-! ### A request sees one list while it runs -/

/-- One action of its body changes neither a request's list nor its checks. -/
theorem perform_keeps_list (i : Instr) (s : State) (a : Action) (hc : checkOf i s = none) (ha : inBody i a) :
    actionsOf i (s.perform a) = actionsOf i s ∧ checkOf i (s.perform a) = none := by
  rcases ha with ⟨d, rfl⟩ | ⟨f, rfl, -⟩ | ⟨w, rfl, hw⟩
  · exact ⟨actionsOf_congr i _ _ rfl (fun _ => rfl) (fun _ => ⟨rfl, rfl, rfl⟩), by cases i <;> exact hc⟩
  · exact ⟨actionsOf_congr i _ _ rfl (fun _ => rfl) (fun _ => ⟨rfl, rfl, rfl⟩), by cases i <;> exact hc⟩
  · cases i <;> cases w <;> first | exact hw.elim | skip
    all_goals constructor
    all_goals first
      | exact actionsOf_congr _ _ _ rfl (fun _ => rfl) (by simp)
      | exact actionsOf_congr _ _ _ rfl (fun h => by simp at h) (fun _ => ⟨rfl, rfl, rfl⟩)
      | exact hc

/-- After the first `k` actions of a request its list and its checks are the same, and its position is `k` further. -/
theorem performAll_take_keeps_list (i : Instr) (s : State) (k j : Nat) (hc : checkOf i s = none)
    (hk : k < (actionsOf i s).length) (hs : s.seq = .active i j) :
    actionsOf i (s.performAll ((actionsOf i s).take k)) = actionsOf i s ∧
      checkOf i (s.performAll ((actionsOf i s).take k)) = none ∧
      (s.performAll ((actionsOf i s).take k)).seq = .active i (j + k) := by
  induction k with
  | zero => exact ⟨rfl, hc, hs⟩
  | succ k ih =>
    obtain ⟨h1, h2, h3⟩ := ih (by omega)
    have hget : (actionsOf i s)[k]? = some ((actionsOf i s)[k]'(by omega)) := List.getElem?_eq_getElem (by omega)
    have hb : inBody i ((actionsOf i s)[k]'(by omega)) := by
      rcases getElem?_actionsOf hc hget with ⟨hb, -⟩ | ⟨-, hlast⟩
      · exact hb
      · omega
    rw [List.take_succ_eq_append_getElem (by omega), performAll_append]
    obtain ⟨k1, k2⟩ := perform_keeps_list i _ _ h2 hb
    refine ⟨k1.trans h1, k2, ?_⟩
    rw [performAll_cons, performAll_nil]
    rcases hb with ⟨d, hd⟩ | ⟨f, hf, -⟩ | ⟨w, hw, -⟩
    · rw [hd]; simp [h3, Nat.add_assoc]
    · rw [hf]; simp [h3, Nat.add_assoc]
    · rw [hw]; simp [h3, Nat.add_assoc]

/-! ### The host's moves play no part in an action -/

theorem perform_host_move (s : State) (a : Action) (h : List HostMove) :
    (s.afterMove h).perform a = (s.perform a).afterMove h := by
  cases a with
  | set w => cases w <;> rfl
  | _ => rfl

theorem performAll_host_move (s : State) (as : List Action) (h : List HostMove) :
    (s.afterMove h).performAll as = (s.performAll as).afterMove h := by
  induction as generalizing s with
  | nil => rfl
  | cons a as ih => rw [performAll_cons, perform_host_move, ih, performAll_cons]

/-! ### Runs -/

/-- A run of `m + n` steps is one of `m` and then one of `n`. -/
theorem run_add (M : Host.Core) (m n : Nat) (s t : M.State) (h : M.run m s = .next t) : M.run (m + n) s = M.run n t := by
  induction m generalizing s with
  | zero => cases h; simp
  | succ m ih =>
    rw [Nat.succ_add]
    unfold Host.Core.run at h
    rw [Host.Core.run]
    cases hs : M.step s with
    | next u => rw [hs] at h; exact ih u h
    | fault f => rw [hs] at h; cases h
    | refused f => rw [hs] at h; cases h

end Sys2Proof.Machine
end

