-- ==== Sys2Proof/Laws/Decode.lean ====
section
/-! SUPPORT. The fields of a request word as numbers (rule R70), what the decoder does with a word built from fields, and
that the fields determine the word. -/

namespace Sys2Proof

theorem fieldOp_toNat (w : ReqWord) : (fieldOp w).toNat = w.toNat / 2 ^ 20 % 2 ^ 4 := by
  simp [fieldOp, BitVec.extractLsb'_toNat, Nat.shiftRight_eq_div_pow]

theorem fieldFnt_toNat (w : ReqWord) : (fieldFnt w).toNat = w.toNat / 2 ^ 19 % 2 ^ 1 := by
  simp [fieldFnt, BitVec.extractLsb'_toNat, Nat.shiftRight_eq_div_pow]

theorem fieldRsv_toNat (w : ReqWord) : (fieldRsv w).toNat = w.toNat / 2 ^ 16 % 2 ^ 3 := by
  simp [fieldRsv, BitVec.extractLsb'_toNat, Nat.shiftRight_eq_div_pow]

theorem fieldA_toNat (w : ReqWord) : (fieldA w).toNat = w.toNat / 2 ^ 8 % 2 ^ 8 := by
  simp [fieldA, BitVec.extractLsb'_toNat, Nat.shiftRight_eq_div_pow]

theorem fieldB_toNat (w : ReqWord) : (fieldB w).toNat = w.toNat % 2 ^ 8 := by
  simp [fieldB, BitVec.extractLsb'_toNat]

/-- The word with the fields `op`, `fnt`, `a`, `b` and RSV = 0 as a number. -/
theorem reqWord_toNat (op : BitVec 4) (fnt : Bit) (a b : Byte) :
    (reqWord op fnt a b).toNat = op.toNat * 2 ^ 20 + fnt.toNat * 2 ^ 19 + a.toNat * 2 ^ 8 + b.toNat := by
  have h1 : (op ++ fnt).toNat = op.toNat * 2 + fnt.toNat := by
    rw [BitVec.toNat_append, ← Nat.shiftLeft_add_eq_or_of_lt fnt.isLt]; simp [Nat.shiftLeft_eq]
  have h2 : (op ++ fnt ++ (0 : BitVec 3)).toNat = (op ++ fnt).toNat * 8 := by
    rw [BitVec.toNat_append, ← Nat.shiftLeft_add_eq_or_of_lt (0 : BitVec 3).isLt]; simp [Nat.shiftLeft_eq]
  have h3 : (op ++ fnt ++ (0 : BitVec 3) ++ a).toNat = (op ++ fnt ++ (0 : BitVec 3)).toNat * 256 + a.toNat := by
    rw [BitVec.toNat_append, ← Nat.shiftLeft_add_eq_or_of_lt a.isLt]; simp [Nat.shiftLeft_eq]
  have h4 : (reqWord op fnt a b).toNat = (op ++ fnt ++ (0 : BitVec 3) ++ a).toNat * 256 + b.toNat := by
    unfold reqWord
    rw [BitVec.toNat_append, ← Nat.shiftLeft_add_eq_or_of_lt b.isLt]; simp [Nat.shiftLeft_eq]
  rw [h4, h3, h2, h1]
  ring

@[simp] theorem fieldOp_reqWord (op : BitVec 4) (fnt : Bit) (a b : Byte) : fieldOp (reqWord op fnt a b) = op := by
  apply BitVec.eq_of_toNat_eq
  rw [fieldOp_toNat, reqWord_toNat]
  omega

@[simp] theorem fieldFnt_reqWord (op : BitVec 4) (fnt : Bit) (a b : Byte) : fieldFnt (reqWord op fnt a b) = fnt := by
  apply BitVec.eq_of_toNat_eq
  rw [fieldFnt_toNat, reqWord_toNat]
  omega

@[simp] theorem fieldRsv_reqWord (op : BitVec 4) (fnt : Bit) (a b : Byte) : fieldRsv (reqWord op fnt a b) = 0 := by
  apply BitVec.eq_of_toNat_eq
  rw [fieldRsv_toNat, reqWord_toNat]
  show _ = 0
  omega

@[simp] theorem fieldA_reqWord (op : BitVec 4) (fnt : Bit) (a b : Byte) : fieldA (reqWord op fnt a b) = a := by
  apply BitVec.eq_of_toNat_eq
  rw [fieldA_toNat, reqWord_toNat]
  omega

@[simp] theorem fieldB_reqWord (op : BitVec 4) (fnt : Bit) (a b : Byte) : fieldB (reqWord op fnt a b) = b := by
  apply BitVec.eq_of_toNat_eq
  rw [fieldB_toNat, reqWord_toNat]
  omega

/-- A word is the sum of its fields. -/
theorem word_eq_of_fields {v w : ReqWord} (hop : fieldOp v = fieldOp w) (hfnt : fieldFnt v = fieldFnt w)
    (hrsv : fieldRsv v = fieldRsv w) (ha : fieldA v = fieldA w) (hb : fieldB v = fieldB w) : v = w := by
  apply BitVec.eq_of_toNat_eq
  have h1 := congrArg BitVec.toNat hop
  have h2 := congrArg BitVec.toNat hfnt
  have h3 := congrArg BitVec.toNat hrsv
  have h4 := congrArg BitVec.toNat ha
  have h5 := congrArg BitVec.toNat hb
  rw [fieldOp_toNat, fieldOp_toNat] at h1
  rw [fieldFnt_toNat, fieldFnt_toNat] at h2
  rw [fieldRsv_toNat, fieldRsv_toNat] at h3
  rw [fieldA_toNat, fieldA_toNat] at h4
  rw [fieldB_toNat, fieldB_toNat] at h5
  have := v.isLt
  have := w.isLt
  omega

/-- The decoder reads exactly the words that are not reserved, by the operation OP selects (rules R72, R73). -/
theorem decode_eq_ok_iff (w : ReqWord) (i : Instr) :
    decode w = .ok i ↔
      reservedBy w = none ∧ operation (fieldOp w) (fieldFnt w) (fieldA w) (fieldB w) = some i := by
  unfold decode
  split <;> rename_i h
  · simp [h]
  · split <;> rename_i h' <;> simp [h, h']

@[simp] theorem font_ofBit_bit (f : Font) : Font.ofBit f.bit = f := by cases f <;> rfl

@[simp] theorem font_bit_ofBit (b : Bit) : (Font.ofBit b).bit = b := by
  revert b; decide

end Sys2Proof
end

