-- ==== Sys2Proof/Laws/Observe.lean ====
section
/-! SUPPORT. The readings of a run on lists put together, and the lines under lists of moves. -/

namespace Sys2Proof.Machine

@[simp] theorem framesOf_append (a b : List Event) : framesOf (a ++ b) = framesOf a ++ framesOf b := by
  induction a with
  | nil => rfl
  | cons e a ih => cases e <;> simp [framesOf, ih]

@[simp] theorem delaysOf_append (a b : List Event) : delaysOf (a ++ b) = delaysOf a ++ delaysOf b := by
  induction a with
  | nil => rfl
  | cons e a ih => cases e <;> simp [delaysOf, ih]

@[simp] theorem donesOf_append (a b : List Event) : donesOf (a ++ b) = donesOf a ++ donesOf b := by
  induction a with
  | nil => rfl
  | cons e a ih => cases e <;> simp [donesOf, ih]

theorem framesOf_delays (n d : Nat) : framesOf (List.replicate n (.delay d)) = [] := by
  induction n with
  | zero => rfl
  | succ n ih => simpa [List.replicate_succ, framesOf] using ih

theorem delaysOf_delays (n d : Nat) : delaysOf (List.replicate n (.delay d)) = List.replicate n d := by
  induction n with
  | zero => rfl
  | succ n ih => simpa [List.replicate_succ, delaysOf] using ih

theorem donesOf_delays (n d : Nat) : donesOf (List.replicate n (.delay d)) = [] := by
  induction n with
  | zero => rfl
  | succ n ih => simpa [List.replicate_succ, donesOf] using ih

theorem mem_framesOf (f : Byte) (es : List Event) : f ∈ framesOf es ↔ .frame f ∈ es := by
  induction es with
  | nil => simp [framesOf]
  | cons e es ih => cases e <;> simp [framesOf, ih]

theorem applyAll_append (p : PinState) (a b : List LineMove) : p.applyAll (a ++ b) = (p.applyAll a).applyAll b := by
  induction a generalizing p with
  | nil => rfl
  | cons m a ih => exact ih (p.apply m)

/-- Only the rising latch edge moves the outputs (rule R56). -/
theorem apply_q_of_not_latch (p : PinState) (m : LineMove) (h : m ≠ .latch true) : (p.apply m).q = p.q := by
  cases m with
  | latch level => cases level <;> first | rfl | exact absurd rfl h
  | clk level => cases level <;> rfl
  | data level => rfl

end Sys2Proof.Machine
end

