-- ==== Sys2Proof/Laws/PerInstr.lean ====
section
/-! SUPPORT. Statements about every request, one lemma per constructor: its word is in the request's row of
opcode_table.json (rule R72). -/

namespace Sys2Proof.Laws.TableRow

/-- The `match` of a request's row in opcode_table.json (rule R72). -/
def rowMatch : Instr → ReqWord
  | .initialise => 0x000000
  | .beginLcd _ _ _ => 0x100000
  | .initNibble _ => 0x200000
  | .command _ => 0x300000
  | .writeChar _ => 0x400000
  | .backlightOff => 0x500000
  | .backlightOn => 0x600000

/-- The `mask` of a request's row in opcode_table.json (rule R72). -/
def rowMask : Instr → ReqWord
  | .initialise => 0xFFFFFF
  | .beginLcd _ _ _ => 0xF70000
  | .initNibble _ => 0xFFFF00
  | .command _ => 0xFFFF00
  | .writeChar _ => 0xFFFF00
  | .backlightOff => 0xFFFFFF
  | .backlightOn => 0xFFFFFF

/-- The request's word selects the request's row: `w & mask = match` (rule R72). -/
def Statement (i : Instr) : Prop := encode i &&& rowMask i = rowMatch i

theorem initialise : Statement .initialise := by
  unfold Statement; decide

theorem beginLcd (cols lines : Byte) (font : Font) : Statement (.beginLcd cols lines font) := by
  show ((0x1#4 ++ font.bit ++ 0#3 ++ cols ++ lines) &&& (0xF#4 ++ 0#1 ++ 7#3 ++ 0#8 ++ 0#8) : BitVec (4 + 1 + 3 + 8 + 8)) =
    0x1#4 ++ 0#1 ++ 0#3 ++ 0#8 ++ 0#8
  simp only [BitVec.and_append, BitVec.and_zero]
  rfl

theorem initNibble (value : Byte) : Statement (.initNibble value) := by
  unfold Statement; revert value; decide

theorem command (value : Byte) : Statement (.command value) := by
  unfold Statement; revert value; decide

theorem writeChar (value : Byte) : Statement (.writeChar value) := by
  unfold Statement; revert value; decide

theorem backlightOff : Statement .backlightOff := by
  unfold Statement; decide

theorem backlightOn : Statement .backlightOn := by
  unfold Statement; decide

end Sys2Proof.Laws.TableRow
end

