-- ==== Sys2Proof/Laws/Step.lean ====
section
/-! SUPPORT. What a step can do, said once (rules R106, R175, R181, R190). -/

namespace Sys2Proof.Machine

/-- `req_ready` (rule R181). -/
theorem ready_iff (s : State) : s.ready = true ↔ s.busy = false ∧ s.rst = false := by
  simp [State.ready]

/-- Everything the block's own transition can come to: it never serves a word. -/
theorem ownTurn_cases (s : State) :
    (s.rst = true ∧ s.ownTurn = .moved s) ∨
      (s.rst = false ∧ ∃ f, s.fault = some f ∧ s.ownTurn = .stopped f) ∨
      (s.rst = false ∧ s.fault = none ∧ s.seq = .idle ∧ s.ownTurn = .moved { s with done := false }) ∨
      (s.rst = false ∧ s.fault = none ∧ ∃ i k, s.seq = .active i k ∧ s.ownTurn = .moved (s.advance i k)) := by
  unfold State.ownTurn
  cases hr : s.rst
  · cases hf : s.fault with
    | some f => exact .inr (.inl ⟨rfl, f, rfl, rfl⟩)
    | none =>
      cases hs : s.seq with
      | idle => exact .inr (.inr (.inl ⟨rfl, rfl, rfl, rfl⟩))
      | active i k => exact .inr (.inr (.inr ⟨rfl, rfl, i, k, rfl, rfl⟩))
  · exact .inl ⟨rfl, rfl⟩

/-- Everything a transition the host only watches can come to. -/
theorem passTurn_cases (s : State) :
    ((s.rst = true ∨ s.fault ≠ none) ∧ s.passTurn = .moved s) ∨
      (s.rst = false ∧ s.fault = none ∧ s.seq = .idle ∧ s.passTurn = .moved { s with done := false }) ∨
      (s.rst = false ∧ s.fault = none ∧ ∃ i k, s.seq = .active i k ∧ s.passTurn = .moved (s.advance i k)) := by
  unfold State.passTurn
  rcases ownTurn_cases s with ⟨hr, h⟩ | ⟨hr, f, hf, h⟩ | ⟨hr, hf, hs, h⟩ | ⟨hr, hf, i, k, hs, h⟩ <;> rw [h]
  · exact .inl ⟨.inl hr, rfl⟩
  · exact .inl ⟨.inr (by rw [hf]; exact Option.some_ne_none f), rfl⟩
  · exact .inr (.inl ⟨hr, hf, hs, rfl⟩)
  · exact .inr (.inr ⟨hr, hf, i, k, hs, rfl⟩)

/-! ### The host's moves -/

theorem pastWords_of_not_word {m : HostMove} (h : m.isWord = false) (rest : List HostMove) :
    pastWords (m :: rest) = m :: rest := by
  simp [pastWords, h]

/-- A move behind held words comes before them. -/
theorem pastWords_append {m : HostMove} (h : m.isWord = false) (words rest : List HostMove)
    (hw : ∀ x ∈ words, x.isWord = true) : pastWords (words ++ m :: rest) = m :: (words ++ rest) := by
  induction words with
  | nil => exact pastWords_of_not_word h rest
  | cons x words ih =>
    have hx := hw x (List.mem_cons_self ..)
    have ih := ih fun y hy => hw y (List.mem_cons_of_mem x hy)
    simp [pastWords, hx, ih, h]

/-- Nothing but words is left as it is. -/
theorem pastWords_words (words : List HostMove) (hw : ∀ x ∈ words, x.isWord = true) : pastWords words = words := by
  induction words with
  | nil => rfl
  | cons x words ih =>
    have hx := hw x (List.mem_cons_self ..)
    have hrest := fun y hy => hw y (List.mem_cons_of_mem x hy)
    have ih := ih hrest
    cases words with
    | nil => simp [pastWords, hx]
    | cons y more =>
      rw [pastWords, if_pos hx, ih]
      exact if_pos (hrest y (List.mem_cons_self ..))

/-- A word in front means that there was nothing but words. -/
theorem eq_of_pastWords_word {x : HostMove} {moves rest : List HostMove} (hx : x.isWord = true)
    (h : pastWords moves = x :: rest) : moves = x :: rest := by
  induction moves generalizing x rest with
  | nil => cases h
  | cons m moves ih =>
    unfold pastWords at h
    split at h
    · split at h
      · rename_i hn
        cases moves with
        | nil => exact h
        | cons y more =>
          unfold pastWords at hn
          split at hn
          · split at hn
            · cases hn
            · split at hn <;> cases hn
          · cases hn
      · rename_i y more hy
        split at h
        · rename_i hyw
          rw [ih hyw hy]
          exact h
        · rename_i hyw
          obtain rfl := (List.cons.inj h).1
          exact absurd hx hyw
    · exact h

theorem pastWords_eq_nil {moves : List HostMove} (h : pastWords moves = []) : moves = [] := by
  cases moves with
  | nil => rfl
  | cons m moves =>
    unfold pastWords at h
    split at h
    · split at h
      · cases h
      · split at h <;> cases h
    · cases h

/-- The words and their order stay. -/
theorem pastWords_filter (moves : List HostMove) :
    (pastWords moves).filter HostMove.isWord = moves.filter HostMove.isWord := by
  induction moves with
  | nil => rfl
  | cons m moves ih =>
    unfold pastWords
    split
    · rename_i hm
      rw [List.filter_cons_of_pos hm, ← ih]
      split
      · rename_i hn
        rw [hn, List.filter_cons_of_pos hm]
      · rename_i x more hx
        rw [hx]
        split
        · rw [List.filter_cons_of_pos hm]
        · rename_i hxw
          rw [List.filter_cons_of_neg hxw, List.filter_cons_of_pos hm, List.filter_cons_of_neg hxw]
    · rfl

theorem comingMoves_filter (s : State) :
    s.comingMoves.filter HostMove.isWord = s.host.filter HostMove.isWord := by
  unfold State.comingMoves
  split
  · rfl
  · exact pastWords_filter s.host

theorem comingMoves_of_ready {s : State} (hr : s.ready = true) : s.comingMoves = s.host := by
  simp [State.comingMoves, hr]

theorem comingMoves_of_not_ready {s : State} (hr : s.ready = false) : s.comingMoves = pastWords s.host := by
  simp [State.comingMoves, hr]

/-- A move at `rst`, or one that lets time pass, in front of the list comes next, whether or not the block is ready. -/
theorem comingMoves_of_not_word {s : State} {m : HostMove} {rest : List HostMove} (hm : s.host = m :: rest)
    (h : m.isWord = false) : s.comingMoves = m :: rest := by
  unfold State.comingMoves
  rw [hm, pastWords_of_not_word h, ite_self]

theorem comingMoves_nil {s : State} (hm : s.host = []) : s.comingMoves = [] := by
  unfold State.comingMoves
  rw [hm]
  exact ite_self _

theorem host_eq_of_comingMoves_word {s : State} {x : HostMove} {rest : List HostMove} (hx : x.isWord = true)
    (h : s.comingMoves = x :: rest) : s.host = x :: rest := by
  unfold State.comingMoves at h
  split at h
  · exact h
  · exact eq_of_pastWords_word hx h

theorem host_eq_of_comingMoves_nil {s : State} (h : s.comingMoves = []) : s.host = [] := by
  unfold State.comingMoves at h
  split at h
  · exact h
  · exact pastWords_eq_nil h

/-- Where no request is pending the list has no word in front, so it is met as it is. -/
theorem comingMoves_of_not_pending {s : State} (h : requestPending s.host = false) : s.comingMoves = s.host := by
  cases hm : s.host with
  | nil => exact comingMoves_nil hm
  | cons m rest =>
    rw [hm] at h
    cases m with
    | request w => cases h
    | requestStepwise w => cases h
    | pass => exact comingMoves_of_not_word hm rfl
    | assertReset => exact comingMoves_of_not_word hm rfl
    | releaseReset => exact comingMoves_of_not_word hm rfl

/-! ### The step -/

/-- What a step to a next state has done: it took a reset; it let reset go; it served a word (a request, or a reserved word);
it accepted a word to be watched; or the block made a transition of its own, with the host's move `rest` behind it. -/
theorem step_cases {s t : State} (h : step s = .next t) :
    (∃ rest, s.comingMoves = .assertReset :: rest ∧ t = (s.afterMove rest).takeReset) ∨
      (∃ rest, s.comingMoves = .releaseReset :: rest ∧ s.rst = true ∧ t = { s.afterMove rest with rst := false }) ∨
      (∃ w rest i, s.host = .request w :: rest ∧ s.ready = true ∧ decode w = .ok i ∧
        exec i (s.afterMove rest) = .next t) ∨
      (∃ w rest r, s.host = .request w :: rest ∧ s.ready = true ∧ decode w = .error r ∧
        t = (s.afterMove rest).raise (.reservedRequest w)) ∨
      (∃ w rest, s.host = .requestStepwise w :: rest ∧ s.ready = true ∧
        t = (s.afterMove rest).acceptWord w) ∨
      (∃ rest,
        (rest = s.host ∨ s.comingMoves = .pass :: rest ∨ (s.comingMoves = .releaseReset :: rest ∧ s.rst = false)) ∧
        (((s.rst = true ∨ s.fault ≠ none) ∧ t = s.afterMove rest) ∨
          (s.rst = false ∧ s.fault = none ∧ s.seq = .idle ∧ t = { s.afterMove rest with done := false }) ∨
          (s.rst = false ∧ s.fault = none ∧ ∃ i k, s.seq = .active i k ∧
            t = (s.afterMove rest).advance i k))) := by
  have own : s.turn = s.ownTurn → ∃ rest,
      (rest = s.host ∨ s.comingMoves = .pass :: rest ∨ (s.comingMoves = .releaseReset :: rest ∧ s.rst = false)) ∧
        (((s.rst = true ∨ s.fault ≠ none) ∧ t = s.afterMove rest) ∨
          (s.rst = false ∧ s.fault = none ∧ s.seq = .idle ∧ t = { s.afterMove rest with done := false }) ∨
          (s.rst = false ∧ s.fault = none ∧ ∃ i k, s.seq = .active i k ∧
            t = (s.afterMove rest).advance i k)) := by
    intro he
    unfold step at h
    rw [he] at h
    refine ⟨s.host, .inl rfl, ?_⟩
    rcases ownTurn_cases s with ⟨hr, ho⟩ | ⟨hr, f, hf, ho⟩ | ⟨hr, hf, hs, ho⟩ | ⟨hr, hf, i, k, hs, ho⟩ <;> rw [ho] at h <;>
      cases h
    · exact .inl ⟨.inl hr, rfl⟩
    · exact .inr (.inl ⟨hr, hf, hs, rfl⟩)
    · exact .inr (.inr ⟨hr, hf, i, k, hs, rfl⟩)
  have pass : ∀ rest, s.turn = (s.afterMove rest).passTurn →
      ((s.rst = true ∨ s.fault ≠ none) ∧ t = s.afterMove rest) ∨
        (s.rst = false ∧ s.fault = none ∧ s.seq = .idle ∧ t = { s.afterMove rest with done := false }) ∨
        (s.rst = false ∧ s.fault = none ∧ ∃ i k, s.seq = .active i k ∧
          t = (s.afterMove rest).advance i k) := by
    intro rest he
    unfold step at h
    rw [he] at h
    rcases passTurn_cases (s.afterMove rest) with ⟨hq, ho⟩ | ⟨hr, hf, hs, ho⟩ | ⟨hr, hf, i, k, hs, ho⟩ <;>
      rw [ho] at h <;> cases h
    · exact .inl ⟨hq, rfl⟩
    · exact .inr (.inl ⟨hr, hf, hs, rfl⟩)
    · exact .inr (.inr ⟨hr, hf, i, k, hs, rfl⟩)
  cases hm : s.comingMoves with
  | nil => exact .inr (.inr (.inr (.inr (.inr (hm ▸ own (by simp [State.turn, hm]))))))
  | cons m rest =>
    cases m with
    | assertReset =>
      simp only [step, State.turn, hm] at h
      exact .inl ⟨rest, rfl, (Host.Outcome.next.inj h).symm⟩
    | releaseReset =>
      cases hr : s.rst with
      | true =>
        simp only [step, State.turn, hm, hr] at h
        exact .inr (.inl ⟨rest, rfl, rfl, (Host.Outcome.next.inj h).symm⟩)
      | false =>
        have hp := pass rest (by simp [State.turn, hm, hr])
        rw [hr] at hp
        exact .inr (.inr (.inr (.inr (.inr ⟨rest, .inr (.inr ⟨rfl, rfl⟩), hp⟩))))
    | pass =>
      exact .inr (.inr (.inr (.inr (.inr ⟨rest, .inr (.inl rfl), pass rest (by simp [State.turn, hm])⟩))))
    | request w =>
      have hh := host_eq_of_comingMoves_word rfl hm
      cases hr : s.ready with
      | true =>
        simp only [step, State.turn, hm, hr, if_true] at h
        cases hd : decode w with
        | ok i =>
          rw [hd] at h
          exact .inr (.inr (.inl ⟨w, rest, i, hh, rfl, hd, h⟩))
        | error r =>
          rw [hd] at h
          exact .inr (.inr (.inr (.inl ⟨w, rest, r, hh, rfl, hd, (Host.Outcome.next.inj h).symm⟩)))
      | false =>
        exact .inr (.inr (.inr (.inr (.inr (hm ▸ own (by simp [State.turn, hm, hr]))))))
    | requestStepwise w =>
      have hh := host_eq_of_comingMoves_word rfl hm
      cases hr : s.ready with
      | true =>
        simp only [step, State.turn, hm, hr, if_true] at h
        exact .inr (.inr (.inr (.inr (.inl ⟨w, rest, hh, rfl, (Host.Outcome.next.inj h).symm⟩))))
      | false =>
        exact .inr (.inr (.inr (.inr (.inr (hm ▸ own (by simp [State.turn, hm, hr]))))))

end Sys2Proof.Machine
end

