-- ==== Sys2Proof/Machine/Assembler.lean ====
section
/-! DEFINITION. The assembler syntax of rule R76: one line of characters to a request line, to a request, to a word. What the
rule does not spell out (spaces, the letters of a hexadecimal digit) is log entry 25. -/

namespace Sys2Proof.Machine

/-- A piece of a line: a run of letters and digits, a character literal's code, or a comma. -/
inductive Token where
  | word (cs : List Char)
  | char (code : Nat)
  | comma
  deriving DecidableEq, Repr

/-- Lower case, since mnemonics are case-insensitive (rule R76). DESIGN CHOICE: the font names, the `0x` prefix, the `b` suffix and the
hexadecimal digits may be of either case too, on which rule R76 is silent (log entry 25). -/
def lowerChar (c : Char) : Char :=
  if 65 ≤ c.toNat ∧ c.toNat ≤ 90 then Char.ofNat (c.toNat + 32) else c

/-- The word read so far, if any, in front of the tokens after it; `acc` holds it backwards. -/
def flushWord (acc : List Char) (after : List Token) : List Token :=
  match acc with
  | [] => after
  | _ => .word acc.reverse :: after

/-- The tokens of a line. A character literal `'c'` is read whole, so that it may be a space, a comma or a capital. Its
code is the character's Unicode code point: DESIGN CHOICE, since rule R76 names no character set (log entry 25). Every other word of
the line is put in lower case, the font names and the numbers too: DESIGN CHOICE, log entry 25. -/
def tokens (acc : List Char) : List Char → List Token
  | [] => flushWord acc []
  | '\'' :: c :: '\'' :: rest => flushWord acc (.char c.toNat :: tokens [] rest)
  | ',' :: rest => flushWord acc (.comma :: tokens [] rest)
  | ' ' :: rest => flushWord acc (tokens [] rest)
  | '\t' :: rest => flushWord acc (tokens [] rest)
  | c :: rest => tokens (lowerChar c :: acc) rest

/-- The value of a digit in a base of at most 16; letters are in lower case here. -/
def digitValue (base : Nat) (c : Char) : Option Nat :=
  let v := if 48 ≤ c.toNat ∧ c.toNat ≤ 57 then some (c.toNat - 48)
    else if 97 ≤ c.toNat ∧ c.toNat ≤ 102 then some (c.toNat - 87) else none
  v.bind fun d => if d < base then some d else none

/-- The value of the digits `cs` after a prefix of value `acc`. -/
def digitsValue (base acc : Nat) : List Char → Option Nat
  | [] => some acc
  | c :: rest => (digitValue base c).bind fun d => digitsValue base (acc * base + d) rest

/-- A number of at least one digit. -/
def number (base : Nat) : List Char → Option Nat
  | [] => none
  | cs => digitsValue base 0 cs

/-- An immediate: `0x` hexadecimal, `...b` binary, decimal, or a character literal (rule R76); in lower case here, whichever the case in
the line (log entry 25). -/
def immediate : Token → Option Nat
  | .char code => some code
  | .comma => none
  | .word ('0' :: 'x' :: digits) => number 16 digits
  | .word cs =>
    match cs.reverse with
    | 'b' :: digits => number 2 digits.reverse
    | _ => number 10 cs

/-- A font name (rule R76), in lower case here, whichever the case in the line (log entry 25). -/
def fontName : Token → Option Font
  | .word ['s', 'm', 'a', 'l', 'l'] => some .small
  | .word ['l', 'a', 'r', 'g', 'e'] => some .large
  | _ => none

/-- The operation of a mnemonic or of its name in the source's API (rule R76). -/
inductive Mnemonic where
  | initialise
  | beginLcd
  | initNibble
  | command
  | writeChar
  | backlightOff
  | backlightOn
  deriving DecidableEq, Repr

/-- Mnemonics and their aliases, in lower case (rule R76). -/
def mnemonicOf : List Char → Option Mnemonic
  | ['i', 'n', 'i', 't', 'i', 'a', 'l', 'i', 'z', 'e'] => some .initialise
  | ['b', 'e', 'g', 'i', 'n'] => some .beginLcd
  | ['i', 'n', 'i', 't', '_', 'n', 'i', 'b', 'b', 'l', 'e'] => some .initNibble
  | ['c', 'o', 'm', 'm', 'a', 'n', 'd'] => some .command
  | ['w', 'r', 'i', 't', 'e', '_', 'c', 'h', 'a', 'r'] => some .writeChar
  | ['w', 'r', 'i', 't', 'e', 'c', 'h', 'a', 'r', 'a', 'c', 't', 'e', 'r'] => some .writeChar
  | ['b', 'a', 'c', 'k', 'l', 'i', 'g', 'h', 't', '_', 'o', 'f', 'f'] => some .backlightOff
  | ['b', 'a', 'c', 'k', 'l', 'i', 'g', 'h', 't', 'o', 'f', 'f'] => some .backlightOff
  | ['b', 'a', 'c', 'k', 'l', 'i', 'g', 'h', 't', '_', 'o', 'n'] => some .backlightOn
  | ['b', 'a', 'c', 'k', 'l', 'i', 'g', 'h', 't', 'o', 'n'] => some .backlightOn
  | _ => none

/-- The line of an operation with its operand tokens (rule R76); `none` where they are not its operands. -/
def operandLine (m : Mnemonic) (operands : List Token) : Option AsmLine :=
  match m, operands with
  | .initialise, [] => some .initialise
  | .beginLcd, [c, .comma, l] =>
    (immediate c).bind fun cols => (immediate l).bind fun lines => some (.beginLcd cols lines none)
  | .beginLcd, [c, .comma, l, .comma, f] =>
    (immediate c).bind fun cols => (immediate l).bind fun lines =>
      (fontName f).bind fun font => some (.beginLcd cols lines (some font))
  | .initNibble, [v] => (immediate v).map AsmLine.initNibble
  | .command, [v] => (immediate v).map AsmLine.command
  | .writeChar, [v] => (immediate v).map AsmLine.writeChar
  | .backlightOff, [] => some .backlightOff
  | .backlightOn, [] => some .backlightOn
  | _, _ => none

/-- One line of characters as a line of the syntax. -/
def parseLine (cs : List Char) : Option AsmLine :=
  match tokens [] cs with
  | .word name :: operands => (mnemonicOf name).bind fun m => operandLine m operands
  | _ => none

/-- The word a line assembles to; `none` is an assembly error (rule R76). -/
def assemble (cs : List Char) : Option ReqWord :=
  ((parseLine cs).bind AsmLine.toInstr?).map encode

end Sys2Proof.Machine
end

