-- ==== Sys2Proof/Tests/Slice0.lean ====
section
/-! SUPPORT. Tests. Expected values are those of spec/95_test_vectors.md and of the rules' own examples. At the end, for every
statement with hypotheses, a state and operands that meet them all. -/

namespace Sys2Proof.Tests

open Sys2Proof Sys2Proof.Machine

/-! ### States to start from -/

/-- After INITIALIZE (95, section 2.2: `pins_cfg = 1`, `q = 0x00`). -/
def configured : State := { State.reset with pinsCfg := true, q := some 0x00 }

/-- The same with the backlight shadow on. -/
def configuredLit : State := { configured with bl := 1 }

/-- After BEGIN 16, 2 (95, P1, end state), the trace left out. -/
def begun : State :=
  { configured with
    shadowN := some 1
    shadowF := some 0
    shadowD := some 1
    shadowC := some 0
    shadowB := some 0
    shadowID := some 1
    shadowSH := some 0
    cols := some 16
    lines := some 2
    q := some 0xC0 }

/-- A block that has faulted on 0x700000 (95, P7). -/
def faulted : State := { configured with busy := true, fault := some (.reservedRequest 0x700000) }

/-- A block in COMMAND 0x01, before its action `k`. -/
def inCommand (k : Nat) : State := { configured with busy := true, seq := .active (.command 0x01) k }

/-- Held in reset. -/
def held : State := { State.reset with rst := true }

/-- The next state of an outcome. -/
def nextOf (o : Host.Outcome State Fault Refusal) : Option State :=
  match o with
  | .next s => some s
  | .fault _ => none
  | .refused _ => none

/-- What is read off the next state of an outcome. -/
def after {α : Type} (o : Host.Outcome State Fault Refusal) (f : State → α) : Option α :=
  (nextOf o).map f

/-! ### Operands that do not fit are no request (rule R76) -/

theorem test_command_too_large : (AsmLine.command 256).wellFormed = false := by decide
theorem test_writeChar_too_large : (AsmLine.writeChar 256).wellFormed = false := by decide
theorem test_initNibble_too_large : (AsmLine.initNibble 256).wellFormed = false := by decide
theorem test_begin_cols_too_large : (AsmLine.beginLcd 256 2 none).wellFormed = false := by decide
theorem test_begin_lines_too_large : (AsmLine.beginLcd 16 256 none).wellFormed = false := by decide
theorem test_largest_operands_fit : (AsmLine.beginLcd 255 255 (some .large)).wellFormed = true := by decide

/-! ### Words written out from rule R70's format: OP, FNT, RSV, A, B -/

theorem test_decode_initialise : decode 0b000000000000000000000000 = .ok .initialise := by decide
theorem test_decode_begin_large :
    decode 0b000110000001010000000001 = .ok (.beginLcd 20 1 .large) := by decide
theorem test_decode_begin_small :
    decode 0b000100000010100000000100 = .ok (.beginLcd 40 4 .small) := by decide
theorem test_decode_initNibble : decode 0b001000000000000011110011 = .ok (.initNibble 0xF3) := by decide
theorem test_decode_command : decode 0b001100000000000010100101 = .ok (.command 0xA5) := by decide
theorem test_decode_writeChar : decode 0b010000000000000001000001 = .ok (.writeChar 0x41) := by decide
theorem test_decode_backlightOff : decode 0b010100000000000000000000 = .ok .backlightOff := by decide
theorem test_decode_backlightOn : decode 0b011000000000000000000000 = .ok .backlightOn := by decide

/-- The reserved words of 95, section 2.8. -/
theorem test_decode_reserved :
    decode 0x700000 = .error .opcode ∧ decode 0xF00000 = .error .opcode ∧ decode 0x010000 = .error .rsv ∧
      decode 0x1F0000 = .error .rsv ∧ decode 0x080000 = .error .fnt ∧ decode 0x208000 = .error .operandA ∧
      decode 0x000100 = .error .operandA ∧ decode 0x300100 = .error .operandA ∧ decode 0x000001 = .error .operandB ∧
      decode 0x500001 = .error .operandB ∧ decode 0x600080 = .error .operandB := by decide

/-- The table's first bits count from the word's low end; a word has 24 bits. -/
theorem test_decodeTableWord :
    decodeTableWord 24 0x181401 = some (.beginLcd 20 1 .large) ∧ decodeTableWord 24 0x700000 = none ∧
      decodeTableWord 32 0x1000000 = none := by decide

/-! ### Frames (95, section 2.1, W1) -/

theorem test_frames :
    assembleFrame 0xA 0 1 1 = 0xAC ∧ assembleFrame 0x5 1 0 0 = 0x52 ∧ assembleFrame 0xF 1 1 1 = 0xFE ∧
      assembleFrame 0x0 0 1 0 = 0x04 := by decide

/-- Rule R90's bytes, written out in bits from its table. -/
theorem test_command_bytes :
    functionSetByte 1 0 = 0b00101000 ∧ functionSetByte 0 1 = 0b00100100 ∧ displayControlByte 1 0 0 = 0b00001100 ∧
      displayControlByte 0 1 0 = 0b00001010 ∧ entryModeByte 1 0 = 0b00000110 ∧ entryModeByte 0 1 = 0b00000101 ∧
      clearDisplayByte = 0b00000001 := by decide

/-! ### One request each -/

/-- 95, W2. -/
theorem test_initialise :
    after (exec .initialise { State.reset with bl := 1 }) (fun t => (t.trace, t.pinsCfg, t.q, t.bl)) =
      some ([.frame 0x00, .done 0], true, some 0x00, 1) := by decide

/-- 95, section 2.5: the frame after a reset that left E high is a latch of nibble 0. -/
theorem test_initialise_latch :
    after (exec .initialise { State.reset with q := some 0x18 }) (fun t => latches (some 0x18) t.trace) =
      some [⟨false, 0⟩] := by decide

/-- 95, P1: the frames of BEGIN 16, 2. -/
theorem test_begin_frames :
    after (exec (.beginLcd 16 2 .small) configured) (fun t => framesOf t.trace) =
      some [0x38, 0x30, 0x38, 0x30, 0x38, 0x30, 0x28, 0x20, 0x28, 0x20, 0x88, 0x80, 0x08, 0x00, 0x88, 0x80,
        0x08, 0x00, 0x18, 0x10, 0x08, 0x00, 0x68, 0x60, 0x08, 0x00, 0xC8, 0xC0] := by decide +kernel

/-- 95, section 2.6, BEGIN 20, 1, LARGE. -/
theorem test_begin_large :
    after (exec (.beginLcd 20 1 .large) configuredLit)
        (fun t => (t.shadowN, t.shadowF, t.shadowD, t.cols, t.lines, t.q)) =
      some (some 0, some 1, some 1, some 20, some 1, some 0xC4) := by decide

/-- 95, section 2.2: INIT_NIBBLE 0x35 with BL = 1. -/
theorem test_initNibble :
    after (exec (.initNibble 0x35) configuredLit) (fun t => (t.trace, t.q)) =
      some ([.frame 0x5C, .delay 1, .frame 0x54, .delay 60, .done 0], some 0x54) := by decide

/-- 95, section 2.2: the high bits of the operand are not sent. -/
theorem test_initNibble_masked :
    after (exec (.initNibble 0xF3) configured) (fun t => framesOf t.trace) = some [0x38, 0x30] := by decide

/-- 95, section 2.3: COMMAND 0x01. -/
theorem test_command :
    after (exec (.command 0x01) configured) (fun t => (t.trace, t.doneCount)) =
      some ([.frame 0x08, .delay 1, .frame 0x00, .frame 0x18, .delay 1, .frame 0x10, .delay 60, .done 0], 0) := by
  decide

/-- 95, section 2.3: COMMAND 0x80 with BL = 1, and its latches. -/
theorem test_command_lit :
    after (exec (.command 0x80) configuredLit) (fun t => (framesOf t.trace, latches (some 0x00) t.trace)) =
      some ([0x8C, 0x84, 0x0C, 0x04], [⟨false, 8⟩, ⟨false, 0⟩]) := by decide

/-- 95, section 2.4: WRITE_CHAR 'A' with BL = 1. -/
theorem test_writeChar :
    after (exec (.writeChar 0x41) configuredLit) (fun t => (t.trace, t.done, t.doneCount)) =
      some ([.frame 0x4E, .delay 1, .frame 0x46, .frame 0x1E, .delay 1, .frame 0x16, .delay 60, .done 1], true, 1) := by
  decide

/-- 95, section 2.4: WRITE_CHAR 0xFF, and its latches. -/
theorem test_writeChar_ff :
    after (exec (.writeChar 0xFF) configured) (fun t => (framesOf t.trace, latches (some 0x00) t.trace)) =
      some ([0xFA, 0xF2, 0xFA, 0xF2], [⟨true, 0xF⟩, ⟨true, 0xF⟩]) := by decide

/-- 95, section 2.7: BACKLIGHT_OFF. -/
theorem test_backlightOff :
    after (exec .backlightOff { begun with bl := 1 }) (fun t => (framesOf t.trace, t.bl, t.shadowD)) =
      some ([0x08, 0x00, 0xC8, 0xC0], 0, some 1) := by decide

/-- 95, section 2.7: BACKLIGHT_ON with the flag on already still transmits. -/
theorem test_backlightOn :
    after (exec .backlightOn { begun with bl := 1 }) (fun t => (framesOf t.trace, t.bl, t.q)) =
      some ([0x0C, 0x04, 0xCC, 0xC4], 1, some 0xC4) := by decide

/-- 95, P4: BACKLIGHT_ON before BEGIN. -/
theorem test_backlightOn_unwritten :
    after (exec .backlightOn configured) (fun t => (t.fault, t.busy, t.bl, t.trace)) =
      some (some (.unwrittenShadow 0x600000 .d), true, 0, []) := by decide

/-! ### One step each -/

/-- 95, section 2.8, check order from reset. -/
theorem test_step_check_order :
    after (step (State.reset.withFetchWord 24 0x700000)) State.fault = some (some (.reservedRequest 0x700000)) ∧
      after (step (State.reset.withFetchWord 24 0x101000)) State.fault = some (some (.notConfigured 0x101000)) ∧
      after (step (State.reset.withFetchWord 24 0x500000)) State.fault = some (some (.notConfigured 0x500000)) ∧
      after (step (State.reset.withFetchWord 24 0x300001)) State.fault = some (some (.notConfigured 0x300001)) ∧
      after (step (State.reset.withFetchWord 24 0x000000)) State.trace = some [.frame 0x00, .done 0] := by decide

/-- 95, section 2.8: BEGIN 16, 0. -/
theorem test_step_bad_geometry :
    after (step (configured.withFetchWord 24 0x101000)) (fun t => (t.fault, t.busy, t.cols, t.trace)) =
      some (some (.badGeometry 0x101000), true, none, []) := by decide

/-- 95, section 2.9: a reset with E high keeps `q`. -/
theorem test_step_reset :
    after (step { inCommand 3 with q := some 0x18, host := [.assertReset] })
        (fun t => (t.q, t.busy, t.pinsCfg, t.seq, t.trace)) =
      some (some 0x18, false, false, .idle, []) := by decide

/-- Rule R29: the second slot's first frame is action 3 of COMMAND 0x01. -/
theorem test_step_action :
    after (step (inCommand 3)) (fun t => (t.q, t.seq, t.busy)) =
      some (some 0x18, .active (.command 0x01) 4, true) := by decide

/-- Rule R181, reset "at any time": a word that a faulted block does not accept holds back no reset, and is held through it. -/
theorem test_step_reset_past_word :
    after (step { faulted with host := [.request 0x000000, .assertReset, .releaseReset] })
        (fun t => (t.fault, t.busy, t.rst, t.host)) =
      some (none, false, true, [.request 0x000000, .releaseReset]) := by decide

/-- The codes of rule R170's table. -/
theorem test_fault_codes :
    (Fault.reservedRequest 0x700000).code = 1 ∧ (Fault.notConfigured 0x300001).code = 2 ∧
      (Fault.unwrittenShadow 0x500000 .d).code = 3 ∧ (Fault.badGeometry 0x101000).code = 4 := by decide

/-! ### The assembler (rule R76) -/

theorem test_assemble_begin :
    assemble ['B', 'E', 'G', 'I', 'N', ' ', '2', '0', ',', ' ', '1', ',', ' ', 'L', 'A', 'R', 'G', 'E'] =
      some 0x181401 := by decide

theorem test_assemble_char :
    assemble ['w', 'r', 'i', 't', 'e', 'C', 'h', 'a', 'r', 'a', 'c', 't', 'e', 'r', ' ', '\'', 'A', '\''] =
      some 0x400041 := by decide

theorem test_assemble_binary :
    assemble ['I', 'N', 'I', 'T', '_', 'N', 'I', 'B', 'B', 'L', 'E', ' ', '0', '0', '1', '1', 'b'] =
      some 0x200003 := by decide

theorem test_assemble_hex_too_large :
    assemble ['C', 'O', 'M', 'M', 'A', 'N', 'D', ' ', '0', 'x', '1', '0', '0'] = none := by decide

/-! ### The hypotheses of the statements are met

One theorem per statement that has hypotheses: a state and operands that meet all of them together, with boundary values where
the statement has clauses. -/

theorem witness_EncodeOfDecode : decode 0x1800FF = .ok (.beginLcd 0 255 .large) := by decide

/-- A word for each clause: the rows, and the first word past the last row. -/
theorem witness_RowsSelectRequests :
    (0x000000 : ReqWord) &&& 0xFFFFFF = 0x000000 ∧ (0x18FFFF : ReqWord) &&& 0xF70000 = 0x100000 ∧
      (0x2000FF : ReqWord) &&& 0xFFFF00 = 0x200000 ∧ (0x3000FF : ReqWord) &&& 0xFFFF00 = 0x300000 ∧
      (0x4000FF : ReqWord) &&& 0xFFFF00 = 0x400000 ∧ (0x500000 : ReqWord) &&& 0xFFFFFF = 0x500000 ∧
      (0x600000 : ReqWord) &&& 0xFFFFFF = 0x600000 ∧ decode 0x700000 = .error .opcode := by decide

theorem witness_StepRunsDecodedRequest :
    ({ configured with host := [.request 0x300001, .pass] } : State).ready = true ∧
      decode 0x300001 = .ok (.command 0x01) := by decide

theorem witness_ReservedRequestFaults :
    ({ State.reset with host := [.request 0x700000] } : State).ready = true ∧
      ({ State.reset with host := [.requestStepwise 0x700000] } : State).ready = true ∧
      decode 0x700000 = .error .opcode := by decide

/-- Busy, faulted with time passing, and in reset: the word stays. -/
theorem witness_UnreadyBlockTakesNoWord :
    (inCommand 3).ready = false ∧
      (after (step { inCommand 3 with host := [.request 0x300001] }) State.host = some [.request 0x300001]) ∧
      held.ready = false ∧
      (after (step { held with host := [.requestStepwise 0x300001, .releaseReset] }) State.host =
        some [.requestStepwise 0x300001]) := by decide

theorem witness_UnreadyBlockRunsNothing : (inCommand 0).ready = false ∧ held.ready = false ∧ faulted.ready = false := by
  decide

theorem witness_IdleBlockHolds :
    begun.seq = .idle ∧ begun.fault = none ∧ begun.rst = false ∧ begun.host = [] := by decide

theorem witness_InitialiseCompletes : State.reset.ready = true := by decide

theorem witness_BeginCompletes : configured.ready = true ∧ configured.pinsCfg = true ∧ (1 : Byte) ≠ 0 := by decide

/-- INIT_NIBBLE, COMMAND, WRITE_CHAR: CommandCompletes, InitNibbleCompletes, WriteCharCompletes. -/
theorem witness_CommandCompletes : configured.ready = true ∧ configured.pinsCfg = true := by decide

theorem witness_InitNibbleCompletes : configuredLit.ready = true ∧ configuredLit.pinsCfg = true := by decide

theorem witness_WriteCharCompletes : begun.ready = true ∧ begun.pinsCfg = true := by decide

theorem witness_BacklightOffCompletes :
    begun.ready = true ∧ begun.pinsCfg = true ∧ begun.shadowD = some 1 ∧ begun.shadowC = some 0 ∧
      begun.shadowB = some 0 := by decide

theorem witness_BacklightOnCompletes :
    begun.ready = true ∧ begun.pinsCfg = true ∧ begun.shadowD = some 1 ∧ begun.shadowC = some 0 ∧
      begun.shadowB = some 0 := by decide

theorem witness_StateAfterBegin : configured.ready = true ∧ configured.pinsCfg = true ∧ 1 ≤ (1 : Byte).toNat := by
  decide

/-- One line and two lines, the two sides of rule R102. -/
theorem witness_LineModeAndFont :
    (∃ t, exec (.beginLcd 20 1 .large) configured = .next t) ∧ (∃ t, exec (.beginLcd 16 2 .large) configured = .next t) ∧
      configured.ready = true ∧ configured.pinsCfg = true :=
  ⟨⟨_, rfl⟩, ⟨_, rfl⟩, rfl, rfl⟩

theorem witness_InitNibbleIgnoresHighBits : configured.pinsCfg = true := by decide

theorem witness_NotConfiguredFaults :
    (Instr.beginLcd 16 0 .small) ≠ .initialise ∧ State.reset.ready = true ∧ State.reset.pinsCfg = false := by decide

/-- A state for each clause: D, C and B the first one unwritten. -/
theorem witness_UnwrittenShadowFaults :
    configured.ready = true ∧ configured.pinsCfg = true ∧ configured.shadowD = none ∧
      ({ begun with shadowC := none } : State).shadowD ≠ none ∧ ({ begun with shadowC := none } : State).shadowC = none ∧
      ({ begun with shadowB := none } : State).shadowC ≠ none ∧ ({ begun with shadowB := none } : State).shadowB = none ∧
      begun.ready = true ∧ begun.pinsCfg = true ∧ Instr.command 0 ≠ .backlightOff ∧ Instr.command 0 ≠ .backlightOn := by
  decide

/-- The last clause, in a state that holds the fault: the meaning changes nothing of it. -/
theorem witness_UnwrittenShadowFaults_kept :
    ∃ s t : State, s.ready = true ∧ s.pinsCfg = true ∧ exec (.command 0) s = .next t ∧
      t.fault = some (.unwrittenShadow 0x500000 .d) :=
  ⟨{ configured with fault := some (.unwrittenShadow 0x500000 .d) }, _, rfl, rfl, rfl, rfl⟩

theorem witness_BadGeometryFaults : configured.ready = true ∧ configured.pinsCfg = true := by decide

/-- Held words: none, and one of each form. -/
theorem witness_FaultedBlockIsQuiescent :
    faulted.fault = some (.reservedRequest 0x700000) ∧ faulted.busy = true ∧ faulted.rst = false ∧ faulted.host = [] ∧
      (∀ x ∈ [HostMove.request 0x000000, .requestStepwise 0x000000], x.isWord = true) ∧
      ({ faulted with host := [.request 0x000000, .pass] } : State).host = [.request 0x000000] ++ .pass :: [] ∧
      ({ faulted with host := [.releaseReset] } : State).host = [] ++ .releaseReset :: [] := by decide

/-- A faulted state meets the invariant, and steps where the host lets time pass and where it raises reset. -/
theorem witness_OnlyResetLeavesFault :
    ({ faulted with host := [.pass] } : State).Inv ∧
      ({ faulted with host := [.pass] } : State).fault = some (.reservedRequest 0x700000) ∧
      (∃ t, step { faulted with host := [.pass] } = .next t) ∧
      (∃ t, step { faulted with host := [.assertReset] } = .next t) := by
  refine ⟨?_, rfl, ⟨_, rfl⟩, ⟨_, rfl⟩⟩
  constructor <;> simp [faulted, configured, State.reset, State.powerOn]

/-- A reset in the middle of a request, and one of a faulted block while the host holds a word. -/
theorem witness_ResetFromAnyState :
    ({ inCommand 3 with host := [.assertReset, .releaseReset] } : State).host = [] ++ .assertReset :: [.releaseReset] ∧
      ({ faulted with host := [.request 0x000000, .assertReset] } : State).host = [.request 0x000000] ++ .assertReset :: [] ∧
      (∀ x ∈ [HostMove.request 0x000000], x.isWord = true) ∧ faulted.ready = false := by decide

/-- A word held through reset, and nothing held. -/
theorem witness_NoRequestInReset :
    held.rst = true ∧ held.host = [] ∧ (∀ x ∈ [HostMove.request 0x000000], x.isWord = true) ∧
      ({ held with host := [.request 0x000000, .releaseReset] } : State).host =
        [.request 0x000000] ++ .releaseReset :: [] := by decide

/-- The first and the last action of COMMAND 0x01. -/
theorem witness_ResetBetweenActions :
    configured.ready = true ∧ configured.fault = none ∧ checkOf (.command 0x01) configured = none ∧
      0 < (actionsOf (.command 0x01) configured).length ∧ 7 < (actionsOf (.command 0x01) configured).length := by decide

theorem witness_RequestIsItsActions :
    configured.ready = true ∧ configured.fault = none ∧ configured.host = [] ∧
      checkOf (.beginLcd 16 2 .small) configured = none := by decide

theorem witness_TransitionPerformsNextAction :
    (inCommand 7).seq = .active (.command 0x01) 7 ∧ (inCommand 7).fault = none ∧ (inCommand 7).rst = false ∧
      (inCommand 7).host = [] ∧ (actionsOf (.command 0x01) (inCommand 7))[7]? = some (.done 0) := by decide

theorem witness_TransmissionFrames :
    configured.ready = true ∧ configured.pinsCfg = true ∧ (∃ t, exec (.command 0xFF) configured = .next t) ∧
      (∃ t, exec (.writeChar 0x00) configured = .next t) ∧ (∃ t, exec (.initNibble 0xFF) configured = .next t) :=
  ⟨rfl, rfl, ⟨_, rfl⟩, ⟨_, rfl⟩, ⟨_, rfl⟩⟩

theorem witness_OneLatchPerSlot :
    configured.ready = true ∧ configured.pinsCfg = true ∧ (∃ t, exec (.initNibble 0x00) configured = .next t) ∧
      (∃ t, exec (.command 0x00) configured = .next t) ∧ (∃ t, exec (.writeChar 0xFF) configured = .next t) :=
  ⟨rfl, rfl, ⟨_, rfl⟩, ⟨_, rfl⟩, ⟨_, rfl⟩⟩

theorem witness_EnablePulseHeld : configured.cfg.Legal ∧ ∃ t, exec (.command 0x01) configured = .next t :=
  ⟨by decide, _, rfl⟩

theorem witness_BringUpSpacing :
    configured.cfg.Legal ∧ configured.ready = true ∧ configured.pinsCfg = true ∧ (1 : Byte) ≠ 0 ∧
      ∃ t, exec (.beginLcd 20 1 .large) configured = .next t :=
  ⟨by decide, rfl, rfl, by decide, _, rfl⟩

theorem witness_ClearWait :
    configured.cfg.Legal ∧ configured.ready = true ∧ configured.pinsCfg = true ∧ (255 : Byte) ≠ 0 ∧
      (∃ t, exec (.beginLcd 255 255 .small) configured = .next t) ∧ (∃ t, exec (.command 0x01) configured = .next t) :=
  ⟨by decide, rfl, rfl, by decide, ⟨_, rfl⟩, ⟨_, rfl⟩⟩

/-- A request of each row of the table. -/
theorem witness_RequestLengths :
    begun.cfg = Params.default ∧ begun.ready = true ∧ checkOf .initialise begun = none ∧
      checkOf (.beginLcd 16 1 .large) begun = none ∧ checkOf (.initNibble 0) begun = none ∧
      checkOf (.command 0) begun = none ∧ checkOf (.writeChar 0) begun = none ∧ checkOf .backlightOff begun = none ∧
      checkOf .backlightOn begun = none ∧ ∃ t, exec .backlightOn begun = .next t :=
  ⟨rfl, rfl, rfl, rfl, rfl, rfl, rfl, rfl, rfl, _, rfl⟩

theorem witness_BacklightKeepsShadows :
    begun.ready = true ∧ checkOf .backlightOff begun = none ∧ checkOf .backlightOn begun = none ∧
      (∃ t, exec .backlightOff begun = .next t) ∧ (∃ t, exec .backlightOn begun = .next t) :=
  ⟨rfl, rfl, rfl, ⟨_, rfl⟩, ⟨_, rfl⟩⟩

theorem witness_OnlyBacklightWritesBL : ∃ t, exec .backlightOn begun = .next t ∧ t.bl ≠ begun.bl :=
  ⟨_, rfl, by decide⟩

theorem witness_ShadowIsWhatWasSent :
    begun.ready = true ∧ checkOf .backlightOff begun = none ∧ checkOf (.beginLcd 16 2 .small) begun = none ∧
      (∃ t, exec .backlightOff begun = .next t) ∧ (∃ t, exec (.beginLcd 16 2 .small) begun = .next t) :=
  ⟨rfl, rfl, rfl, ⟨_, rfl⟩, ⟨_, rfl⟩⟩

theorem witness_LargeFontHasOneLine :
    (begun.shadowF = some 1 → begun.lines = some 1) ∧
      ∃ t, exec (.beginLcd 20 1 .large) begun = .next t ∧ t.shadowF = some 1 :=
  ⟨by decide, _, rfl, by decide⟩

theorem witness_RequestFrame :
    (∃ t, exec .initialise State.reset = .next t ∧ t.pinsCfg ≠ State.reset.pinsCfg) ∧
      (∃ t, exec (.command 0) configured = .next t) ∧ ∀ c l f, Instr.command 0 ≠ .beginLcd c l f :=
  ⟨⟨_, rfl, by decide⟩, ⟨_, rfl⟩, by intros; simp⟩

theorem witness_OnlyResetClearsPinsCfg :
    ∃ t, step { begun with host := [.assertReset] } = .next t ∧ begun.pinsCfg = true ∧ t.pinsCfg = false :=
  ⟨_, rfl, by decide, by decide⟩

/-- A step that sends a frame, one that sends none, and a reset. -/
theorem witness_OutputsShowLastFrame :
    (∃ t, step (inCommand 3) = .next t ∧ t.q ≠ (inCommand 3).q) ∧ (∃ t, step (inCommand 1) = .next t) ∧
      ∃ t, step { begun with host := [.assertReset] } = .next t :=
  ⟨⟨_, rfl, by decide⟩, ⟨_, rfl⟩, ⟨_, rfl⟩⟩

theorem witness_DataFramesOnlyFromWriteChar :
    ∃ t, exec (.writeChar 0x41) configured = .next t ∧ .frame 0x4A ∈ t.trace ∧ (0x4A : Byte).getLsbD 1 = true :=
  ⟨_, rfl, by decide, by decide⟩

theorem witness_EveryEvenFrameOccurs : (0xFE : Byte).getLsbD 0 = false ∧ (0x00 : Byte).getLsbD 0 = false := by decide

/-- A block in the middle of COMMAND 0x01 meets the invariant, and steps. -/
theorem witness_StepKeepsInvariant : (inCommand 3).Inv ∧ ∃ t, step (inCommand 3) = .next t := by
  refine ⟨?_, _, rfl⟩
  constructor
  · decide
  · decide
  · intro i k h
    obtain ⟨rfl, rfl⟩ := Seq.active.inj h
    decide
  · intro i k h hk
    rfl
  · intro h
    cases h
  · intro f h
    cases h
  · intro f h
    obtain rfl := Option.some.inj h
    rfl
  · intro h
    cases h

theorem witness_LinesAgreeWithOutputs :
    (∃ t, exec (.command 0x01) configured = .next t) ∧
      ({ latch := true, clk := false, data := true, sr := 0xFF, q := some 0x00 } : PinState).q = configured.q :=
  ⟨⟨_, rfl⟩, by decide⟩

/-- An ended run whose host has moves at `rst` left meets the invariant, and steps without a reset. -/
theorem witness_EndedRunEmitsNothing :
    ({ State.reset with host := [.pass, .releaseReset, .assertReset, .request 0x000000] } : State).Inv ∧
      ({ State.reset with host := [.pass, .releaseReset, .assertReset, .request 0x000000] } : State).final ∧
      ∃ t, step { State.reset with host := [.pass, .releaseReset, .assertReset, .request 0x000000] } = .next t := by
  refine ⟨?_, ⟨rfl, rfl, rfl⟩, _, rfl⟩
  constructor <;> simp [State.reset, State.powerOn, State.shadowsUnwritten]

end Sys2Proof.Tests
end

section
/-! SUPPORT. The statements on the level of the model and the end of a run (rules R7, R8): O55 and O56. -/

namespace Sys2Proof.Machine

/-! ### One frame on the lines (rules R52, R55) -/

/-- What raising CLK leaves in the serial stage, DATA being `b` (rule R55). -/
def shiftIn (sr : Byte) (b : Bool) : Byte := sr <<< 1 ||| (BitVec.ofBool b).setWidth 8

theorem applyAll_bitMoves (p : PinState) (b : Bool) :
    p.applyAll (bitMoves b) = { p with clk := false, data := b, sr := shiftIn p.sr b } := rfl

theorem getLsbD_shiftIn_zero (sr : Byte) (b : Bool) : (shiftIn sr b).getLsbD 0 = b := by
  simp [shiftIn]

theorem getLsbD_shiftIn_succ (sr : Byte) (b : Bool) {i : Nat} (hi : i + 1 < 8) :
    (shiftIn sr b).getLsbD (i + 1) = sr.getLsbD i := by
  simp [shiftIn, hi, BitVec.getLsbD_eq_getElem (Nat.lt_of_succ_lt hi)]

/-- The eight bits of a frame, its highest first, push out whatever the serial stage held. -/
theorem foldl_shiftIn_shiftOrder (sr f : Byte) : (shiftOrder f).foldl shiftIn sr = f := by
  simp only [shiftOrder, List.foldl_cons, List.foldl_nil]
  apply BitVec.eq_of_getLsbD_eq
  intro i hi
  interval_cases i <;> simp (disch := omega) only [getLsbD_shiftIn_zero, getLsbD_shiftIn_succ]

theorem applyAll_shiftMoves (p : PinState) (f : Byte) :
    p.applyAll (shiftMoves f) = { p with latch := false, clk := false, data := f.getLsbD 0, sr := f } := by
  calc p.applyAll (shiftMoves f)
      = { p with
          latch := false, clk := false, data := f.getLsbD 0, sr := (shiftOrder f).foldl shiftIn p.sr } := rfl
    _ = _ := by rw [foldl_shiftIn_shiftOrder]

/-- A SendFrame leaves its frame in both stages of the shift register, whatever the lines and the register were at
(rule R55). -/
theorem applyAll_sendFrameMoves (p : PinState) (f : Byte) :
    p.applyAll (sendFrameMoves f) = { latch := true, clk := false, data := f.getLsbD 0, sr := f, q := some f } := by
  rw [sendFrameMoves, applyAll_append, applyAll_shiftMoves]
  rfl

/-! ### The line level follows the frame level (rule R7) -/

/-- One action: the lines driven as its events say end at the outputs the action leaves (rules R55, R59). -/
theorem applyAll_events_q {p : PinState} {s : State} (a : Action) (hq : p.q = s.q) :
    (p.applyAll (a.events.flatMap Event.lineMoves)).q = (s.perform a).q := by
  cases a with
  | sendFrame f =>
    have hmoves : (Action.sendFrame f).events.flatMap Event.lineMoves = sendFrameMoves f := rfl
    rw [hmoves, applyAll_sendFrameMoves, perform_sendFrame_q]
  | set w => exact hq.trans (perform_set_q s w).symm
  | wait d => exact hq
  | done n => exact hq

theorem applyAll_events_q_performAll {p : PinState} {s : State} (as : List Action) (hq : p.q = s.q) :
    (p.applyAll ((as.flatMap Action.events).flatMap Event.lineMoves)).q = (s.performAll as).q := by
  induction as generalizing p s with
  | nil => exact hq
  | cons a as ih =>
    rw [List.flatMap_cons, List.flatMap_append, applyAll_append, performAll_cons]
    exact ih (applyAll_events_q a hq)

/-! ### The end of a run (rules R8, R186) -/

@[simp] theorem requestPending_pass (rest : List HostMove) :
    requestPending (.pass :: rest) = requestPending rest := rfl

@[simp] theorem requestPending_releaseReset (rest : List HostMove) :
    requestPending (.releaseReset :: rest) = requestPending rest := rfl

@[simp] theorem requestPending_request (w : ReqWord) (rest : List HostMove) :
    requestPending (.request w :: rest) = true := rfl

@[simp] theorem requestPending_requestStepwise (w : ReqWord) (rest : List HostMove) :
    requestPending (.requestStepwise w :: rest) = true := rfl

/-- No request is being executed at the end of a run (rules R22, R29). -/
theorem seq_idle_of_final {s : State} (hinv : s.Inv) (hfin : s.final) : s.seq = .idle := by
  obtain ⟨hbusy, -, -⟩ := hfin
  by_contra hseq
  simp [hinv.busy_iff.2 (.inl hseq)] at hbusy

/-! ### The two statements -/

/-- Settles O55: the line level simulates the frame level, action by action of the request's list. -/
theorem linesAgreeWithOutputs : Obligations.LinesAgreeWithOutputs := by
  intro s t i p h hq
  rw [exec_eq_serve] at h
  rcases serve_cases h with ⟨-, rfl⟩ | ⟨-, f, -, rfl⟩ | ⟨-, -, rfl⟩
  · exact ⟨[], by simp, hq⟩
  · exact ⟨[], by simp, hq⟩
  · refine ⟨(actionsOf i s).flatMap Action.events, performAll_trace _ _, ?_⟩
    exact applyAll_events_q_performAll (s := s.accept i) _ hq

/-- Settles O56, by the cases of a step: at the end of a run no word is left to accept and no action to perform. -/
theorem endedRunEmitsNothing : Obligations.EndedRunEmitsNothing := by
  intro s t hinv hfin h
  have hidle := seq_idle_of_final hinv hfin
  obtain ⟨hbusy, hpend, hfault⟩ := hfin
  have hcoming := comingMoves_of_not_pending hpend
  rcases step_cases h with ⟨rest, hm, -⟩ | ⟨rest, hm, -, rfl⟩ | ⟨w, rest, i, hm, -⟩ | ⟨w, rest, r, hm, -⟩ |
    ⟨w, rest, hm, -⟩ | ⟨rest, hm, hown⟩
  · exact .inl ⟨rest, hm⟩
  · have hrest : requestPending rest = false := by rwa [← hcoming, hm, requestPending_releaseReset] at hpend
    exact .inr ⟨rfl, rfl, hbusy, hrest, hfault⟩
  · simp [hm] at hpend
  · simp [hm] at hpend
  · simp [hm] at hpend
  · have hrest : requestPending rest = false := by
      rcases hm with rfl | hm | ⟨hm, -⟩
      · exact hpend
      · rwa [← hcoming, hm, requestPending_pass] at hpend
      · rwa [← hcoming, hm, requestPending_releaseReset] at hpend
    rcases hown with ⟨-, rfl⟩ | ⟨-, -, -, rfl⟩ | ⟨-, -, i, k, hactive, -⟩
    · exact .inr ⟨rfl, rfl, hbusy, hrest, hfault⟩
    · exact .inr ⟨rfl, rfl, hbusy, hrest, hfault⟩
    · rw [hidle] at hactive
      cases hactive

end Sys2Proof.Machine
end

section
/-! SUPPORT. The machine's invariant is kept by every step (rules R21, R22, R29, R40, R81, R175, R178, R190): O53 and O52. -/

namespace Sys2Proof.Machine

/-! ### One action of a request being executed -/

/-- No action clears `pins_cfg` (rule R21). -/
theorem perform_pinsCfg_of_set {s : State} (a : Action) (h : s.pinsCfg = true) : (s.perform a).pinsCfg = true := by
  cases a with
  | set w =>
    cases w with
    | pinsCfg => rfl
    | _ => exact h
  | _ => exact h

/-- An action of a request's body leaves the block busy at the next position (rules R22, R29). -/
theorem perform_body_position {i : Instr} {a : Action} (s : State) (ha : inBody i a) :
    (s.perform a).busy = s.busy ∧ (s.perform a).seq = s.seq.next := by
  rcases ha with ⟨d, rfl⟩ | ⟨f, rfl, -⟩ | ⟨w, rfl, -⟩ <;> simp

/-- Bit 0 of every frame an action sends is 0, where the action stands in a request's list (rule R81). -/
theorem perform_frames_even {i : Instr} {a : Action} {s : State} (ha : inBody i a ∨ ∃ n, a = .done n)
    (htrace : ∀ f, .frame f ∈ s.trace → f.getLsbD 0 = false) (hq : ∀ f, s.q = some f → f.getLsbD 0 = false) :
    (∀ f, .frame f ∈ (s.perform a).trace → f.getLsbD 0 = false) ∧
      ∀ f, (s.perform a).q = some f → f.getLsbD 0 = false := by
  rcases ha with (⟨d, rfl⟩ | ⟨g, rfl, hg⟩ | ⟨w, rfl, -⟩) | ⟨n, rfl⟩
  · simpa using ⟨htrace, hq⟩
  · refine ⟨fun f hf => ?_, fun f hf => Option.some.inj hf ▸ hg⟩
    rcases List.mem_append.1 hf with hf | hf
    · exact htrace f hf
    · obtain rfl : f = g := by simpa using hf
      exact hg
  · simpa using ⟨htrace, hq⟩
  · simpa using ⟨htrace, hq⟩

/-- Every request but INITIALIZE is checked for configured lines (rule R171). -/
theorem pinsCfg_of_check {i : Instr} {s : State} (hc : checkOf i s = none) : i = .initialise ∨ s.pinsCfg = true := by
  cases i with
  | initialise => exact .inl rfl
  | beginLcd cols lines font =>
    exact .inr ((configuredCheck_eq_none_iff _ s).1 ((firstFault_eq_none_iff _ _).1 hc).1)
  | initNibble value => exact .inr ((configuredCheck_eq_none_iff _ s).1 hc)
  | command value => exact .inr ((configuredCheck_eq_none_iff _ s).1 hc)
  | writeChar value => exact .inr ((configuredCheck_eq_none_iff _ s).1 hc)
  | backlightOff => exact .inr ((configuredCheck_eq_none_iff _ s).1 ((firstFault_eq_none_iff _ _).1 hc).1)
  | backlightOn => exact .inr ((configuredCheck_eq_none_iff _ s).1 ((firstFault_eq_none_iff _ _).1 hc).1)

/-- The list of a request that passed its checks has an action. -/
theorem length_actionsOf_pos {i : Instr} {s : State} (hc : checkOf i s = none) : 0 < (actionsOf i s).length := by
  obtain ⟨body, n, he, -⟩ := actionsOf_shape i s hc
  simp [he]

/-- The lines are configured once a request has performed an action: INITIALIZE configures them in its first (rule R100), any
other request found them configured. -/
theorem perform_configures {s : State} (hinv : s.Inv) {i : Instr} {k : Nat} (hseq : s.seq = .active i k) {a : Action}
    (ha : (actionsOf i s)[k]? = some a) : (s.perform a).pinsCfg = true := by
  rcases Nat.eq_zero_or_pos k with rfl | hk
  · rcases pinsCfg_of_check (hinv.active_ok i 0 hseq).1 with rfl | hp
    · obtain rfl : .set .pinsCfg = a := Option.some.inj ha
      rfl
    · exact perform_pinsCfg_of_set a hp
  · exact perform_pinsCfg_of_set a (hinv.active_configured i k hseq (Nat.pos_iff_ne_zero.1 hk))

/-! ### What keeps the invariant -/

namespace State.Inv

/-- A ready block executes nothing and holds no fault (rules R22, R175). -/
theorem idle_of_ready {s : State} (hinv : s.Inv) (hr : s.ready = true) : s.seq = .idle ∧ s.fault = none := by
  have hb : ¬ s.busy = true := by simp [((ready_iff s).1 hr).1]
  rw [hinv.busy_iff] at hb
  simpa using hb

/-- A block that executes a request is out of reset and without a fault (rules R175, R190). -/
theorem running_of_active {s : State} (hinv : s.Inv) {i : Instr} {k : Nat} (hseq : s.seq = .active i k) :
    s.busy = true ∧ s.fault = none ∧ s.rst = false := by
  have hne : s.seq ≠ .idle := by simp [hseq]
  refine ⟨hinv.busy_iff.2 (.inl hne), ?_, ?_⟩
  · by_contra hf
    exact hne (hinv.fault_idle hf)
  · by_contra hr
    obtain ⟨-, -, -, -, hidle, -⟩ := hinv.in_reset (by simpa using hr)
    exact hne hidle

theorem afterMove {s : State} (hinv : s.Inv) (rest : List HostMove) : (s.afterMove rest).Inv :=
  { hinv with
    active_ok := fun i k h => by
      rw [checkOf_host, actionsOf_host]
      exact hinv.active_ok i k h }

/-- The end of the pulse on `done` (log entry 7). -/
theorem donePulseEnd {s : State} (hinv : s.Inv) (hidle : s.seq = .idle) : ({ s with done := false } : State).Inv :=
  { hinv with active_ok := fun i k h => by simp [hidle] at h }

/-- A reset (rules R40, R190). -/
theorem takeReset {s : State} (hinv : s.Inv) : s.takeReset.Inv where
  busy_iff := by simp
  fault_idle := by simp
  active_ok := by simp
  active_configured := by simp
  unconfigured := by simp [State.shadowsUnwritten]
  trace_even := by simp
  outputs_even := hinv.outputs_even
  in_reset := by simp [State.elementsReset, State.shadowsUnwritten]

/-- The end of a reset (rule R190). -/
theorem releaseReset {s : State} (hinv : s.Inv) (hr : s.rst = true) : ({ s with rst := false } : State).Inv := by
  obtain ⟨-, -, -, -, hidle, -⟩ := hinv.in_reset hr
  exact { hinv with
    active_ok := fun i k h => by simp [hidle] at h
    in_reset := fun h => by cases h }

/-- A fault taken at acceptance (rule R175). -/
theorem raise {s : State} (hinv : s.Inv) (hr : s.ready = true) (f : Fault) : (s.raise f).Inv where
  busy_iff := by simp
  fault_idle := by simp
  active_ok := by simp
  active_configured := by simp
  unconfigured := hinv.unconfigured
  trace_even := hinv.trace_even
  outputs_even := hinv.outputs_even
  in_reset := by simp [((ready_iff s).1 hr).2]

/-- Acceptance of a request that passes its checks (rules R29, R178, R181). -/
theorem accept {s : State} (hinv : s.Inv) (hr : s.ready = true) {i : Instr} (hc : checkOf i s = none) :
    (s.accept i).Inv where
  busy_iff := by simp
  fault_idle := by simp [(hinv.idle_of_ready hr).2]
  active_ok := by
    intro j k h
    obtain ⟨rfl, rfl⟩ := Seq.active.inj h
    rw [checkOf_accept, actionsOf_accept]
    exact ⟨hc, length_actionsOf_pos hc⟩
  active_configured := by
    intro j k h hk
    obtain ⟨-, rfl⟩ := Seq.active.inj h
    exact absurd rfl hk
  unconfigured := hinv.unconfigured
  trace_even := hinv.trace_even
  outputs_even := hinv.outputs_even
  in_reset := by simp [((ready_iff s).1 hr).2]

/-- One action of the request being executed (rules R29, R106). -/
theorem perform {s : State} (hinv : s.Inv) {i : Instr} {k : Nat} (hseq : s.seq = .active i k) {a : Action}
    (ha : (actionsOf i s)[k]? = some a) : (s.perform a).Inv := by
  obtain ⟨hbusy, hfault, hrst⟩ := hinv.running_of_active hseq
  have hc := (hinv.active_ok i k hseq).1
  have hcfg := perform_configures hinv hseq ha
  obtain ⟨-, hfault', hrst', -, -⟩ := performAll_keeps s [a]
  rw [performAll_cons, performAll_nil, hfault] at hfault'
  rw [performAll_cons, performAll_nil, hrst] at hrst'
  rcases getElem?_actionsOf hc ha with ⟨hbody, hlen⟩ | ⟨⟨n, rfl⟩, -⟩
  · obtain ⟨hbusy', hseq'⟩ := perform_body_position s hbody
    obtain ⟨hlist, hcheck⟩ := perform_keeps_list i s a hc hbody
    obtain ⟨htrace, hq⟩ := perform_frames_even (.inl hbody) hinv.trace_even hinv.outputs_even
    rw [hbusy] at hbusy'
    rw [hseq, seq_next_active] at hseq'
    exact {
      busy_iff := by simp [hbusy', hseq']
      fault_idle := by simp [hfault']
      active_ok := by
        intro j m h
        obtain ⟨rfl, rfl⟩ := Seq.active.inj (hseq'.symm.trans h)
        rw [hlist]
        exact ⟨hcheck, hlen⟩
      active_configured := fun _ _ _ _ => hcfg
      unconfigured := by simp [hcfg]
      trace_even := htrace
      outputs_even := hq
      in_reset := by simp [hrst'] }
  · obtain ⟨htrace, hq⟩ := perform_frames_even (i := i) (.inr ⟨n, rfl⟩) hinv.trace_even hinv.outputs_even
    exact {
      busy_iff := by simp [hfault]
      fault_idle := by simp
      active_ok := by simp
      active_configured := by simp
      unconfigured := by simp [hcfg]
      trace_even := htrace
      outputs_even := hq
      in_reset := by simp [hrst] }

/-- The actions of a request up to any position (rule R106). -/
theorem performAll_take {s : State} (hinv : s.Inv) {i : Instr} (hseq : s.seq = .active i 0) (k : Nat)
    (hk : k ≤ (actionsOf i s).length) : (s.performAll ((actionsOf i s).take k)).Inv := by
  have hc := (hinv.active_ok i 0 hseq).1
  induction k with
  | zero => exact hinv
  | succ k ih =>
    obtain ⟨hlist, -, hpos⟩ := performAll_take_keeps_list i s k 0 hc hk hseq
    rw [List.take_succ_eq_append_getElem hk, performAll_append]
    refine (ih (Nat.le_of_lt hk)).perform hpos ?_
    rw [hlist, Nat.zero_add]
    exact List.getElem?_eq_getElem hk

/-- A request's meaning (rules R60, R175, R181). -/
theorem exec {s t : State} (hinv : s.Inv) {i : Instr} (h : Machine.exec i s = .next t) : t.Inv := by
  rw [exec_eq_serve] at h
  rcases serve_cases h with ⟨-, rfl⟩ | ⟨hr, f, -, rfl⟩ | ⟨hr, hc, rfl⟩
  · exact hinv
  · exact hinv.raise hr f
  · have hall := (hinv.accept hr hc).performAll_take rfl _ le_rfl
    rwa [List.take_length, actionsOf_accept] at hall

/-- A word accepted to be watched action by action (rules R106, R178, R181). -/
theorem acceptWord {s : State} (hinv : s.Inv) (hr : s.ready = true) (w : ReqWord) : (s.acceptWord w).Inv := by
  unfold State.acceptWord
  split
  · exact hinv.raise hr _
  · split
    · exact hinv.raise hr _
    · exact hinv.accept hr ‹_›

/-- The next action of the request being executed (rule R106). -/
theorem advance {s : State} (hinv : s.Inv) {i : Instr} {k : Nat} (hseq : s.seq = .active i k) :
    (s.advance i k).Inv := by
  unfold State.advance
  split
  · exact hinv.perform hseq ‹_›
  · exact hinv

end State.Inv

/-! ### The two statements -/

/-- Settles O53, by the cases of a step, each of which keeps the invariant. -/
theorem stepKeepsInvariant : Obligations.StepKeepsInvariant := by
  intro s t hinv h
  rcases step_cases h with ⟨rest, -, rfl⟩ | ⟨rest, -, hr, rfl⟩ | ⟨w, rest, i, -, -, -, h⟩ | ⟨w, rest, r, -, hr, -, rfl⟩ |
    ⟨w, rest, -, hr, rfl⟩ | ⟨rest, -, hown⟩
  · exact (hinv.afterMove rest).takeReset
  · exact (hinv.afterMove rest).releaseReset hr
  · exact (hinv.afterMove rest).exec h
  · exact (hinv.afterMove rest).raise hr _
  · exact (hinv.afterMove rest).acceptWord hr w
  · rcases hown with ⟨-, rfl⟩ | ⟨-, -, hidle, rfl⟩ | ⟨-, -, i, k, hactive, rfl⟩
    · exact hinv.afterMove rest
    · exact (hinv.afterMove rest).donePulseEnd hidle
    · exact (hinv.afterMove rest).advance hactive

/-- Settles O52: nothing has been written or emitted after power-on. -/
theorem invariantAtReset : Obligations.InvariantAtReset := by
  intro p
  constructor <;> simp [State.powerOn, State.shadowsUnwritten]

end Sys2Proof.Machine
end

section
/-! SUPPORT. A block that is not ready, reset, and a request advanced one action a step (rules R22, R29, R106, R181, R190,
R191): O13, O14, O31, O33, O34, O35 and O36. -/

namespace Sys2Proof.Machine

/-! ### A request's word -/

/-- The decoder reads back what the encoder writes (rules R72, R74, R75). -/
theorem decode_encode (i : Instr) : decode (encode i) = .ok i := by
  rw [decode_eq_ok_iff]
  cases i <;> simp [encode, reservedBy, operation]

/-! ### One step -/

theorem step_assertReset {s : State} {rest : List HostMove} (hm : s.comingMoves = .assertReset :: rest) :
    step s = .next (s.afterMove rest).takeReset := by
  simp [step, State.turn, hm]

/-- A reset leaves rule R40's table. -/
theorem takeReset_elementsReset (s : State) : s.takeReset.elementsReset := by
  simp [State.elementsReset, State.shadowsUnwritten]

/-- A ready block takes a request to be watched: it is accepted, and no action performed (rules R29, R181). -/
theorem step_requestStepwise {s : State} {i : Instr} (rest : List HostMove) (hr : s.ready = true)
    (hc : checkOf i s = none) :
    step (s.afterMove (.requestStepwise (encode i) :: rest)) = .next ((s.accept i).afterMove rest) := by
  have hcoming : (s.afterMove (.requestStepwise (encode i) :: rest)).comingMoves =
      .requestStepwise (encode i) :: rest := comingMoves_of_ready hr
  have haccept : (s.afterMove rest).acceptWord (encode i) = (s.accept i).afterMove rest := by
    simp only [State.acceptWord, decode_encode, checkOf_host, hc]
    rfl
  simp only [step, State.turn, hcoming, afterMove_ready, hr, if_true]
  exact congrArg Host.Outcome.next haccept

theorem advance_eq_perform {s : State} {i : Instr} {k : Nat} {a : Action} (ha : (actionsOf i s)[k]? = some a) :
    s.advance i k = s.perform a := by
  simp [State.advance, ha]

@[simp] theorem perform_host (s : State) (a : Action) : (s.perform a).host = s.host := by
  cases a <;> simp

theorem advance_host (s : State) (i : Instr) (k : Nat) : (s.advance i k).host = s.host := by
  unfold State.advance
  split <;> simp

/-- The host lets a transition of the block pass, with the moves `rest` behind it: it has no move to make, or its move is
`pass`. -/
def letsPass (moves rest : List HostMove) : Prop :=
  (moves = [] ∧ rest = []) ∨ moves = .pass :: rest

/-- A block that executes a request performs the action at its position while the host lets transitions pass
(rule R106). -/
theorem step_performs {s : State} {rest : List HostMove} {i : Instr} {k : Nat} {a : Action}
    (hm : letsPass s.host rest) (hseq : s.seq = .active i k) (hf : s.fault = none) (hr : s.rst = false)
    (ha : (actionsOf i s)[k]? = some a) : step s = .next ((s.perform a).afterMove rest) := by
  rcases hm with ⟨hm, rfl⟩ | hm
  · have hkept : (s.perform a).afterMove [] = s.perform a := by
      rw [← hm, ← perform_host s a]
      rfl
    simp [step, State.turn, comingMoves_nil hm, State.ownTurn, hr, hf, hseq, advance_eq_perform ha, hkept]
  · rw [← actionsOf_host i s rest] at ha
    simp [step, State.turn, comingMoves_of_not_word hm rfl, State.passTurn, State.ownTurn, hr, hf, hseq,
      advance_eq_perform ha, perform_host_move]

/-- The words held are the same before and behind a move that presents none (rule R181). -/
theorem filter_isWord_of_comingMoves {s : State} {m : HostMove} {rest : List HostMove} (h : m.isWord = false)
    (hm : s.comingMoves = m :: rest) : rest.filter HostMove.isWord = s.host.filter HostMove.isWord := by
  rw [← comingMoves_filter, hm, List.filter_cons_of_neg (by simp [h])]

/-! ### A request one action at a time -/

theorem run_one (M : Host.Core) (s : M.State) : M.run 1 s = M.step s := by
  rw [Host.Core.run]
  cases M.step s <;> rfl

/-- A run goes one step further. -/
theorem run_succ_of_step {k : Nat} {s u : State} {o : Host.Outcome State Fault Refusal}
    (hrun : Host.Core.run core k s = .next u) (hstep : step u = o) : Host.Core.run core (k + 1) s = o :=
  (run_add core k 1 s u hrun).trans ((run_one core u).trans hstep)

/-- `k` steps of a block that begins a request perform the first `k` actions of its list, `moves j` being what the host has
left after `j` of them (rules R29, R106). -/
theorem run_performs {s : State} {i : Instr} (hseq : s.seq = .active i 0) (hc : checkOf i s = none)
    (hf : s.fault = none) (hr : s.rst = false) (moves : Nat → List HostMove) (k : Nat)
    (hk : k ≤ (actionsOf i s).length) (hm : ∀ j < k, letsPass (moves j) (moves (j + 1))) :
    Host.Core.run core k (s.afterMove (moves 0)) =
      .next ((s.performAll ((actionsOf i s).take k)).afterMove (moves k)) := by
  induction k with
  | zero => rfl
  | succ k ih =>
    have hlt : k < (actionsOf i s).length := hk
    have hfirst := ih hlt.le fun j hj => hm j (Nat.lt_succ_of_lt hj)
    obtain ⟨hlist, -, hpos⟩ := performAll_take_keeps_list i s k 0 hc hlt hseq
    obtain ⟨-, hfault, hrst, -, -⟩ := performAll_keeps s ((actionsOf i s).take k)
    have hnext := step_performs (s := (s.performAll ((actionsOf i s).take k)).afterMove (moves k)) (i := i)
      (k := k) (a := (actionsOf i s)[k]) (hm k (Nat.lt_succ_self k)) (by simpa using hpos) (hfault.trans hf)
      (hrst.trans hr) (by rw [actionsOf_host, hlist]; exact List.getElem?_eq_getElem hlt)
    rw [perform_host_move] at hnext
    rw [List.take_succ_eq_append_getElem hlt, performAll_append]
    exact run_succ_of_step hfirst hnext

/-- The same from the presenting of the request's word on: one step accepts it, the others perform its actions. -/
theorem run_requestStepwise {s : State} {i : Instr} (hr : s.ready = true) (hf : s.fault = none)
    (hc : checkOf i s = none) (moves : Nat → List HostMove) (k : Nat) (hk : k ≤ (actionsOf i s).length)
    (hm : ∀ j < k, letsPass (moves j) (moves (j + 1))) :
    Host.Core.run core (1 + k) (s.afterMove (.requestStepwise (encode i) :: moves 0)) =
      .next (((s.accept i).performAll ((actionsOf i s).take k)).afterMove (moves k)) := by
  have haccept := (run_one core _).trans (step_requestStepwise (moves 0) hr hc)
  rw [run_add core 1 k _ _ haccept]
  have hperform := run_performs (accept_seq s i) ((checkOf_accept i i s).trans hc) hf ((ready_iff s).1 hr).2 moves k
  rw [actionsOf_accept] at hperform
  exact hperform hk hm

/-- The actions of a body emit no `Done` (rule R29). -/
theorem donesOf_events_of_body {i : Instr} (as : List Action) (h : ∀ a ∈ as, inBody i a) :
    donesOf (as.flatMap Action.events) = [] := by
  induction as with
  | nil => rfl
  | cons a as ih =>
    rw [List.flatMap_cons, donesOf_append, ih fun b hb => h b (List.mem_cons_of_mem a hb), List.append_nil]
    rcases h a (List.mem_cons_self ..) with ⟨d, rfl⟩ | ⟨f, rfl, -⟩ | ⟨w, rfl, -⟩ <;> rfl

/-- Before its last action a request has emitted no `Done` (rule R29). -/
theorem donesOf_performAll_take {s : State} {i : Instr} (u : State) {k : Nat} (hc : checkOf i s = none)
    (hk : k < (actionsOf i s).length) :
    donesOf (u.performAll ((actionsOf i s).take k)).trace = donesOf u.trace := by
  obtain ⟨body, n, hlist, hbody⟩ := actionsOf_shape i s hc
  rw [hlist, List.length_append, List.length_singleton, Nat.lt_succ_iff] at hk
  rw [performAll_trace, donesOf_append, hlist, List.take_append_of_le_length hk,
    donesOf_events_of_body _ fun a ha => hbody a (List.mem_of_mem_take ha), List.append_nil]

/-- The host's moves while it lets `n` transitions pass with reset at hand (rule R190). -/
def passThenReset (n : Nat) : List HostMove :=
  List.replicate n .pass ++ [.assertReset]

theorem letsPass_passThenReset {j k : Nat} (h : j < k) :
    letsPass (passThenReset (k - j)) (passThenReset (k - (j + 1))) := by
  have hj : k - j = k - (j + 1) + 1 := by omega
  rw [hj]
  exact .inr rfl

/-! ### The statements -/

/-- Settles O13: a step of an unready block accepts no word, and the words before the move it makes stay held. -/
theorem unreadyBlockTakesNoWord : Obligations.UnreadyBlockTakesNoWord := by
  intro s t hr h
  rcases step_cases h with ⟨rest, hm, rfl⟩ | ⟨rest, hm, -, rfl⟩ | ⟨w, rest, i, -, hready, -⟩ |
    ⟨w, rest, r, -, hready, -⟩ | ⟨w, rest, -, hready, -⟩ | ⟨rest, hm, hown⟩
  · exact filter_isWord_of_comingMoves rfl hm
  · exact filter_isWord_of_comingMoves rfl hm
  · simp [hr] at hready
  · simp [hr] at hready
  · simp [hr] at hready
  · have hhost : t.host = rest := by
      rcases hown with ⟨-, rfl⟩ | ⟨-, -, -, rfl⟩ | ⟨-, -, i, k, -, rfl⟩
      · rfl
      · rfl
      · exact advance_host ..
    rw [hhost]
    rcases hm with rfl | hm | ⟨hm, -⟩
    · rfl
    · exact filter_isWord_of_comingMoves rfl hm
    · exact filter_isWord_of_comingMoves rfl hm

/-- Settles O14: serving a request waits for `req_ready`. -/
theorem unreadyBlockRunsNothing : Obligations.UnreadyBlockRunsNothing := by
  intro i s hr
  rw [exec_eq_serve]
  exact serve_waiting i _ _ hr

/-- Settles O31: the words before the reset are none, or held back by a block that is not ready. -/
theorem resetFromAnyState : Obligations.ResetFromAnyState := by
  intro s words rest hwords hheld hhost
  have hm : s.comingMoves = .assertReset :: (words ++ rest) := by
    rcases hheld with rfl | hr
    · exact comingMoves_of_not_word hhost rfl
    · rw [comingMoves_of_not_ready hr, hhost]
      exact pastWords_append rfl words rest hwords
  exact ⟨_, step_assertReset hm, takeReset_elementsReset _, rfl, rfl, rfl, rfl, rfl, rfl⟩

/-- Settles O33: rule R40's table, read off the state after power-on. -/
theorem powerOnState : Obligations.PowerOnState := by
  intro p
  refine ⟨⟨rfl, rfl, rfl, ?_, rfl, rfl⟩, rfl, rfl, rfl⟩
  simp [State.shadowsUnwritten, State.powerOn]

/-- Settles O34: the first actions one step at a time, then the reset. -/
theorem resetBetweenActions : Obligations.ResetBetweenActions := by
  intro s i k hr hf hc hk
  have hrun := run_requestStepwise hr hf hc (fun j => passThenReset (k - j)) k hk.le
    fun j hj => letsPass_passThenReset hj
  obtain ⟨-, -, hpos⟩ := performAll_take_keeps_list i (s.accept i) k 0 ((checkOf_accept i i s).trans hc)
    (by rwa [actionsOf_accept]) (accept_seq s i)
  rw [actionsOf_accept, Nat.zero_add] at hpos
  obtain ⟨-, hfault, -, hended, -⟩ := performAll_keeps (s.accept i) ((actionsOf i s).take k)
  have hreset := step_assertReset
    (s := ((s.accept i).performAll ((actionsOf i s).take k)).afterMove (passThenReset (k - k))) (rest := [])
    (comingMoves_of_not_word (by simp [passThenReset]) rfl)
  have hstop := run_succ_of_step hrun hreset
  rw [show 1 + k + 1 = k + 2 by omega] at hstop
  refine ⟨_, _, hstop, rfl, takeReset_elementsReset _, rfl, rfl, ?_, donesOf_performAll_take (s.accept i) hc hk⟩
  simp [hended, hpos, hfault, hf]

/-- Settles O35: acceptance and then every action, one a step. -/
theorem requestIsItsActions : Obligations.RequestIsItsActions := by
  intro s i hr hf hhost hc
  have hrun := run_requestStepwise hr hf hc (fun _ => []) _ le_rfl fun _ _ => .inl ⟨rfl, rfl⟩
  obtain ⟨-, -, -, -, hkept⟩ := performAll_keeps (s.accept i) (actionsOf i s)
  refine hrun.trans ?_
  rw [List.take_length, exec_eq_serve, hc, serve_runs i _ hr, ← hhost, ← accept_host s i, ← hkept]
  rfl

/-- Settles O36: the host has no move to make, so the block performs the action at its position. -/
theorem transitionPerformsNextAction : Obligations.TransitionPerformsNextAction := by
  intro s i k a hseq hf hr hhost ha
  rw [step_performs (.inl ⟨hhost, rfl⟩) hseq hf hr ha, ← hhost, ← perform_host s a]
  rfl

end Sys2Proof.Machine
end

section
/-! SUPPORT. What a request leaves and what it leaves alone (rules R20 to R28, R33, R41, R56, R101, R160, R161): O23, O44, O45,
O46, O47, O48 and O49. -/

namespace Sys2Proof.Machine

/-! ### The state a whole request leaves -/

/-- BEGIN's list, and what it leaves (rules R41, R101, R102). -/
theorem performAll_beginLcd (s : State) (cols lines : Byte) (font : Font) :
    (s.accept (.beginLcd cols lines font)).performAll (beginLcdActions cols lines font s) =
      { s with
        cols := some cols
        lines := some lines
        shadowN := some (lineMode lines)
        shadowF := some (resolvedFont font lines)
        shadowD := some 1
        shadowC := some 0
        shadowB := some 0
        shadowID := some 1
        shadowSH := some 0 : State }.completed
      (beginEvents s.cfg s.bl (functionSetByte (lineMode lines) (resolvedFont font lines)))
      (assembleFrame 0xC 0 s.bl 0) 0 := by
  simp only [beginLcdActions, powerOnWaitActions, performAll_append, performAll_cons, performAll_nil,
    performAll_waits, performAll_bringUp, performAll_setup]
  simp only [State.perform, State.write, State.accept, State.completed, beginEvents, Config.nPor, Config.tPorStep,
    List.append_assoc]

/-- A backlight request's list, and what it leaves where D, C and B have been written (rules R160, R161). -/
theorem performAll_backlight (s : State) (i : Instr) (level d c b : Bit) (hd : s.shadowD = some d)
    (hc : s.shadowC = some c) (hb : s.shadowB = some b) :
    (s.accept i).performAll (backlightActions level s) =
      { s with bl := level : State }.completed (byteEvents s.cfg level 0 (displayControlByte d c b))
        (assembleFrame (lowNibble (displayControlByte d c b)) 0 level 0) 0 := by
  simp only [backlightActions, shadowedDisplayControl, hd, hc, hb, List.cons_append, performAll_cons,
    performAll_append, performAll_nil, performAll_transmit_command]
  simp [State.perform, State.write, State.completed, State.accept, hd, hc, hb]

/-- BEGIN's checks are that the lines are configured and that there is a line (rules R171, R174). -/
theorem beginLcdCheck_eq_none_iff (cols lines : Byte) (font : Font) (s : State) :
    checkOf (.beginLcd cols lines font) s = none ↔ s.pinsCfg = true ∧ lines ≠ 0 := by
  simp [checkOf, beginLcdCheck, firstFault_eq_none_iff, configuredCheck_eq_none_iff]

/-- A backlight request that passes its checks finds D, C and B written (rules R11, R173). -/
theorem exists_shadow_of_backlightCheck {i : Instr} {s : State} (h : backlightCheck i s = none) :
    ∃ d c b, s.shadowD = some d ∧ s.shadowC = some c ∧ s.shadowB = some b := by
  obtain ⟨hd, hc, hb⟩ := (displayShadowCheck_eq_none_iff i s).1 ((firstFault_eq_none_iff _ _).1 h).2
  obtain ⟨d, hd⟩ := Option.ne_none_iff_exists'.1 hd
  obtain ⟨c, hc⟩ := Option.ne_none_iff_exists'.1 hc
  obtain ⟨b, hb⟩ := Option.ne_none_iff_exists'.1 hb
  exact ⟨d, c, b, hd, hc, hb⟩

/-- A request that is served and passes its checks performs its actions (rules R60, R178). -/
theorem exec_eq_performAll {i : Instr} {s : State} (hr : s.ready = true) (hc : checkOf i s = none) :
    exec i s = .next ((s.accept i).performAll (actionsOf i s)) := by
  rw [exec_eq_serve, hc]
  exact serve_runs i _ hr

/-- The last transmission of BEGIN is its step 10 (rule R101). -/
theorem beginEvents_last (p : Params) (bl : Bit) (fset : Byte) :
    ∃ before, beginEvents p bl fset = before ++ byteEvents p bl 0 0x0C :=
  ⟨_, rfl⟩

theorem eq_one_of_resolvedFont {font : Font} {lines : Byte} (h : resolvedFont font lines = 1) : lines = 1 := by
  unfold resolvedFont at h
  split at h
  · rename_i hcond
    exact hcond.2
  · cases h

/-! ### What every action of a request keeps -/

/-- What each action of a list keeps, the list keeps. -/
theorem performAll_preserves {s : State} (P : State → Prop) (as : List Action) (hs : P s)
    (h : ∀ u, ∀ a ∈ as, P u → P (u.perform a)) : P (s.performAll as) := by
  induction as generalizing s with
  | nil => exact hs
  | cons a as ih =>
    exact ih (h s a (List.mem_cons_self ..) hs) fun u b hb => h u b (List.mem_cons_of_mem a hb)

/-- What acceptance, a fault and each action of the request's list keep, the request keeps. -/
theorem exec_keeps {i : Instr} {s t : State} (P : State → Prop) (h : exec i s = .next t) (hs : P s)
    (hraise : ∀ f, P (s.raise f)) (haccept : P (s.accept i))
    (hbody : ∀ u a, inBody i a → P u → P (u.perform a)) (hdone : ∀ u n, P u → P (u.perform (.done n))) : P t := by
  rw [exec_eq_serve] at h
  rcases serve_cases h with ⟨-, rfl⟩ | ⟨-, f, -, rfl⟩ | ⟨-, hc, rfl⟩
  · exact hs
  · exact hraise f
  · obtain ⟨body, n, hlist, hall⟩ := actionsOf_shape i s hc
    rw [hlist, performAll_append, performAll_cons, performAll_nil]
    exact hdone _ n (performAll_preserves P body haccept fun u a ha => hbody u a (hall a ha))

/-- Only the backlight requests' lists write BL (rule R23). -/
theorem perform_bl_of_body {i : Instr} {a : Action} (u : State) (hi : i ≠ .backlightOff ∧ i ≠ .backlightOn)
    (ha : inBody i a) : (u.perform a).bl = u.bl := by
  rcases ha with ⟨d, rfl⟩ | ⟨f, rfl, -⟩ | ⟨w, rfl, hw⟩
  · rfl
  · rfl
  · cases w with
    | bl v => cases i <;> simp [mayWrite] at hw hi
    | _ => rfl

/-- The elements that only BEGIN writes (rules R24 to R27, R33). -/
def State.beginElements (s : State) :
    (Option Bit × Option Bit × Option Bit × Option Bit × Option Bit × Option Bit × Option Bit) ×
      Option Byte × Option Byte :=
  ((s.shadowN, s.shadowF, s.shadowD, s.shadowC, s.shadowB, s.shadowID, s.shadowSH), s.cols, s.lines)

theorem perform_beginElements_of_body {i : Instr} {a : Action} (u : State) (hi : ∀ c l f, i ≠ .beginLcd c l f)
    (ha : inBody i a) : (u.perform a).beginElements = u.beginElements := by
  rcases ha with ⟨d, rfl⟩ | ⟨f, rfl, -⟩ | ⟨w, rfl, hw⟩
  · rfl
  · rfl
  · cases w with
    | pinsCfg => rfl
    | bl v => rfl
    | _ =>
      cases i with
      | beginLcd c l f => exact absurd rfl (hi c l f)
      | _ => exact hw.elim

theorem exec_beginElements {i : Instr} {s t : State} (h : exec i s = .next t) (hi : ∀ c l f, i ≠ .beginLcd c l f) :
    t.beginElements = s.beginElements :=
  exec_keeps (fun u => u.beginElements = s.beginElements) h rfl (fun _ => rfl) rfl
    (fun u _ ha hu => (perform_beginElements_of_body u hi ha).trans hu) (fun _ _ hu => hu)

/-- Only INITIALIZE's list writes `pins_cfg`, and it writes 1 (rules R21, R100). -/
theorem perform_pinsCfg_of_body {i : Instr} {a : Action} (u : State) (ha : inBody i a) :
    (u.perform a).pinsCfg = u.pinsCfg ∨ (i = .initialise ∧ (u.perform a).pinsCfg = true) := by
  rcases ha with ⟨d, rfl⟩ | ⟨f, rfl, -⟩ | ⟨w, rfl, hw⟩
  · exact .inl rfl
  · exact .inl rfl
  · cases w with
    | pinsCfg =>
      cases i with
      | initialise => exact .inr ⟨rfl, rfl⟩
      | _ => exact hw.elim
    | _ => exact .inl rfl

theorem exec_pinsCfg {i : Instr} {s t : State} (h : exec i s = .next t) :
    t.pinsCfg = s.pinsCfg ∨ (i = .initialise ∧ t.pinsCfg = true) := by
  refine exec_keeps (fun u => u.pinsCfg = s.pinsCfg ∨ (i = .initialise ∧ u.pinsCfg = true)) h (.inl rfl)
    (fun _ => .inl rfl) (.inl rfl) (fun u a ha hu => ?_) (fun _ _ hu => hu)
  rcases perform_pinsCfg_of_body u ha with hkeep | hset
  · rwa [hkeep]
  · exact .inr hset

/-- What no request touches (rules R20, R33). -/
theorem exec_keeps_ports {i : Instr} {s t : State} (h : exec i s = .next t) :
    t.cfg = s.cfg ∧ t.rst = s.rst ∧ t.ended = s.ended ∧ t.host = s.host := by
  rw [exec_eq_serve] at h
  rcases serve_cases h with ⟨-, rfl⟩ | ⟨-, f, -, rfl⟩ | ⟨-, -, rfl⟩
  · exact ⟨rfl, rfl, rfl, rfl⟩
  · exact ⟨rfl, rfl, rfl, rfl⟩
  · obtain ⟨hcfg, -, hrst, hended, hhost⟩ := performAll_keeps (s.accept i) (actionsOf i s)
    exact ⟨hcfg, hrst, hended, hhost⟩

/-- A backlight request leaves BL at its level, or as it was (rules R22, R160, R161, R175). -/
theorem serve_backlight_bl {s t : State} {i : Instr} {level : Bit}
    (h : s.serve i (backlightCheck i s) (backlightActions level s) = .next t) : t.bl = s.bl ∨ t.bl = level := by
  rcases serve_cases h with ⟨-, rfl⟩ | ⟨-, f, -, rfl⟩ | ⟨-, hc, rfl⟩
  · exact .inl rfl
  · exact .inl rfl
  · obtain ⟨d, c, b, hd, hc, hb⟩ := exists_shadow_of_backlightCheck hc
    rw [performAll_backlight s i level d c b hd hc hb]
    exact .inr rfl

/-- After a backlight request the shadow stands as its transmission says (rule R25). -/
theorem serve_backlight_sent {s t : State} {i : Instr} {level : Bit} (hr : s.ready = true)
    (hc : backlightCheck i s = none)
    (h : s.serve i (backlightCheck i s) (backlightActions level s) = .next t) :
    ∃ before d c b, t.shadowD = some d ∧ t.shadowC = some c ∧ t.shadowB = some b ∧
      t.trace = before ++ byteEvents s.cfg t.bl 0 (displayControlByte d c b) ++ [.done 0] := by
  obtain ⟨d, c, b, hd, hc', hb⟩ := exists_shadow_of_backlightCheck hc
  rw [hc, serve_runs i _ hr, performAll_backlight s i level d c b hd hc' hb] at h
  obtain rfl := Host.Outcome.next.inj h
  exact ⟨s.trace, d, c, b, hd, hc', hb, rfl⟩

/-! ### Events and outputs -/

/-- `t` comes from `s` by emitting events, with the last frame among them at the outputs (rules R28, R56). -/
def emitted (s t : State) : Prop :=
  ∃ es, t.trace = s.trace ++ es ∧ t.q = (framesOf es).getLast?.or s.q

theorem emitted_of_same {s t : State} (htrace : t.trace = s.trace) (hq : t.q = s.q) : emitted s t :=
  ⟨[], by simpa using htrace, hq⟩

/-- A list of actions leaves its last frame at the outputs (rules R28, R130). -/
theorem performAll_q (s : State) (as : List Action) :
    (s.performAll as).q = (framesOf (as.flatMap Action.events)).getLast?.or s.q := by
  induction as generalizing s with
  | nil => rfl
  | cons a as ih =>
    rw [performAll_cons, ih, List.flatMap_cons, framesOf_append, List.getLast?_append, Option.or_assoc]
    congr 1
    cases a <;> simp [Action.events, framesOf]

theorem emitted_performAll (s : State) (as : List Action) : emitted s (s.performAll as) :=
  ⟨as.flatMap Action.events, performAll_trace s as, performAll_q s as⟩

theorem emitted_advance (s : State) (i : Instr) (k : Nat) : emitted s (s.advance i k) := by
  unfold State.advance
  split
  · exact emitted_performAll s [_]
  · exact emitted_of_same rfl rfl

theorem emitted_exec {i : Instr} {s t : State} (h : exec i s = .next t) : emitted s t := by
  rw [exec_eq_serve] at h
  rcases serve_cases h with ⟨-, rfl⟩ | ⟨-, f, -, rfl⟩ | ⟨-, -, rfl⟩
  · exact emitted_of_same rfl rfl
  · exact emitted_of_same rfl rfl
  · exact emitted_performAll (s.accept i) (actionsOf i s)

/-- Accepting a word emits nothing and writes nothing but the sequencer's own elements (rules R175, R181). -/
theorem acceptWord_keeps (s : State) (w : ReqWord) :
    (s.acceptWord w).pinsCfg = s.pinsCfg ∧ (s.acceptWord w).trace = s.trace ∧ (s.acceptWord w).q = s.q := by
  unfold State.acceptWord
  split
  · exact ⟨rfl, rfl, rfl⟩
  · split <;> exact ⟨rfl, rfl, rfl⟩

theorem advance_pinsCfg_of_set {s : State} (i : Instr) (k : Nat) (h : s.pinsCfg = true) :
    (s.advance i k).pinsCfg = true := by
  unfold State.advance
  split
  · exact perform_pinsCfg_of_set _ h
  · exact h

/-- A step that is not a reset leaves configured lines configured (rule R21). -/
theorem step_pinsCfg {s t : State} (h : step s = .next t) (hs : s.pinsCfg = true) :
    (∃ rest, s.comingMoves = .assertReset :: rest) ∨ t.pinsCfg = true := by
  rcases step_cases h with ⟨rest, hm, -⟩ | ⟨rest, -, -, rfl⟩ | ⟨w, rest, i, -, -, -, h⟩ | ⟨w, rest, r, -, -, -, rfl⟩ |
    ⟨w, rest, -, -, rfl⟩ | ⟨rest, -, hown⟩
  · exact .inl ⟨rest, hm⟩
  · exact .inr hs
  · rcases exec_pinsCfg h with hkeep | ⟨-, hset⟩
    · exact .inr (hkeep.trans hs)
    · exact .inr hset
  · exact .inr hs
  · exact .inr ((acceptWord_keeps (s.afterMove rest) w).1.trans hs)
  · rcases hown with ⟨-, rfl⟩ | ⟨-, -, -, rfl⟩ | ⟨-, -, i, k, -, rfl⟩
    · exact .inr hs
    · exact .inr hs
    · exact .inr (advance_pinsCfg_of_set (s := s.afterMove rest) i k hs)

/-! ### The statements -/

/-- Settles O23, by the state BEGIN's list leaves. -/
theorem stateAfterBegin : Obligations.StateAfterBegin := by
  intro s c l fnt hr hp hl
  have hne : l ≠ 0 := by
    rintro rfl
    simp at hl
  have hfont : resolvedFont fnt l = if fnt = Font.large ∧ l.toNat = 1 then 1 else 0 := by
    simp [resolvedFont, ← BitVec.toNat_inj]
  have hframe : assembleFrame 0xC 0 s.bl 0 = 0xC0 ||| s.bl.setWidth 8 <<< 2 := by
    generalize s.bl = bl
    revert bl
    decide
  have hexec := exec_eq_performAll hr ((beginLcdCheck_eq_none_iff c l fnt s).2 ⟨hp, hne⟩)
  rw [actionsOf, performAll_beginLcd] at hexec
  exact ⟨_, hexec, rfl, congrArg some hfont, rfl, rfl, rfl, rfl, rfl, rfl, rfl, rfl, congrArg some hframe⟩

/-- Settles O44: no other request's list writes BL. -/
theorem onlyBacklightWritesBL : Obligations.OnlyBacklightWritesBL := by
  intro s t i h hne
  by_cases hoff : i = .backlightOff
  · subst hoff
    exact .inl ⟨rfl, (serve_backlight_bl h).resolve_left hne⟩
  by_cases hon : i = .backlightOn
  · subst hon
    exact .inr ⟨rfl, (serve_backlight_bl h).resolve_left hne⟩
  · have hkeep : t.bl = s.bl := exec_keeps (fun u => u.bl = s.bl) h rfl (fun _ => rfl) rfl
      (fun u _ ha hu => (perform_bl_of_body u ⟨hoff, hon⟩ ha).trans hu) (fun _ _ hu => hu)
    exact absurd hkeep hne

/-- Settles O45, by the states that BEGIN and the backlight requests leave. -/
theorem shadowIsWhatWasSent : Obligations.ShadowIsWhatWasSent := by
  intro s t i hi hr hc h
  rcases hi with ⟨c, l, f, rfl⟩ | rfl | rfl
  · rw [exec_eq_performAll hr hc, actionsOf, performAll_beginLcd] at h
    obtain rfl := Host.Outcome.next.inj h
    obtain ⟨before, hlast⟩ :=
      beginEvents_last s.cfg s.bl (functionSetByte (lineMode l) (resolvedFont f l))
    refine ⟨s.trace ++ before, 1, 0, 0, rfl, rfl, rfl, ?_⟩
    rw [State.completed, hlast, ← List.append_assoc]
    rfl
  · exact serve_backlight_sent hr hc h
  · exact serve_backlight_sent hr hc h

/-- Settles O46: BEGIN resolves the large font only for one line, and no other request writes either. -/
theorem largeFontHasOneLine : Obligations.LargeFontHasOneLine := by
  intro s t i hs h
  by_cases hi : ∃ c l f, i = .beginLcd c l f
  · obtain ⟨c, l, f, rfl⟩ := hi
    rw [exec_eq_serve] at h
    rcases serve_cases h with ⟨-, rfl⟩ | ⟨-, f, -, rfl⟩ | ⟨-, -, rfl⟩
    · exact hs
    · exact hs
    · rw [actionsOf, performAll_beginLcd]
      intro hF
      exact congrArg some (eq_one_of_resolvedFont (Option.some.inj hF))
  · have hkeep := exec_beginElements h fun c l f he => hi ⟨c, l, f, he⟩
    simp only [State.beginElements, Prod.mk.injEq] at hkeep
    obtain ⟨⟨-, hF, -⟩, -, hlines⟩ := hkeep
    rwa [hF, hlines]

/-- Settles O47, by what each action of a request's list may write. -/
theorem requestFrame : Obligations.RequestFrame := by
  intro s t i h
  obtain ⟨hcfg, hrst, hended, hhost⟩ := exec_keeps_ports h
  refine ⟨hcfg, hrst, hended, hhost, (exec_pinsCfg h).resolve_left, fun hi => ?_⟩
  have hkeep := exec_beginElements h hi
  simpa only [State.beginElements, Prod.mk.injEq, and_assoc] using hkeep

/-- Settles O48: the one step that clears `pins_cfg` is the reset. -/
theorem onlyResetClearsPinsCfg : Obligations.OnlyResetClearsPinsCfg := by
  intro s t h hs ht
  exact (step_pinsCfg h hs).resolve_right (by simp [ht])

/-- Settles O49, by the cases of a step: what is not a reset emits events. -/
theorem outputsShowLastFrame : Obligations.OutputsShowLastFrame := by
  intro s t h
  rcases step_cases h with ⟨rest, hm, rfl⟩ | ⟨rest, -, -, rfl⟩ | ⟨w, rest, i, -, -, -, h⟩ | ⟨w, rest, r, -, -, -, rfl⟩ |
    ⟨w, rest, -, -, rfl⟩ | ⟨rest, -, hown⟩
  · exact .inl ⟨rfl, rest, hm⟩
  · exact .inr (emitted_of_same rfl rfl)
  · have hemit : emitted (s.afterMove rest) t := emitted_exec h
    exact .inr hemit
  · exact .inr (emitted_of_same rfl rfl)
  · obtain ⟨-, htrace, hq⟩ := acceptWord_keeps (s.afterMove rest) w
    exact .inr (emitted_of_same htrace hq)
  · rcases hown with ⟨-, rfl⟩ | ⟨-, -, -, rfl⟩ | ⟨-, -, i, k, -, rfl⟩
    · exact .inr (emitted_of_same rfl rfl)
    · exact .inr (emitted_of_same rfl rfl)
    · exact .inr (emitted_advance (s.afterMove rest) i k)

end Sys2Proof.Machine
end

section
/-! SUPPORT. The output space at the pins (rules R54 to R56): O54 and O9. -/

namespace Sys2Proof.Machine

/-! ### The outputs while a frame is shifted (rule R56) -/

/-- The outputs hold along any moves that do not raise LATCH. -/
theorem path_q_of_latch_true_notMem {p : PinState} {ms : List LineMove} (hms : .latch true ∉ ms) :
    ∀ x ∈ p.path ms, x.q = p.q := by
  induction ms generalizing p with
  | nil => simp [PinState.path]
  | cons m ms ih =>
    obtain ⟨hm, hms⟩ := not_or.1 (mt List.mem_cons.2 hms)
    have hq : (p.apply m).q = p.q := apply_q_of_not_latch p m (Ne.symm hm)
    rw [PinState.path, List.forall_mem_cons]
    exact ⟨hq, fun x hx => (ih hms x hx).trans hq⟩

/-- Shifting a frame never raises LATCH: it is lowered first, and a bit moves only DATA and CLK (rule R55). -/
theorem latch_true_notMem_shiftMoves (f : Byte) : .latch true ∉ shiftMoves f := by
  simp [shiftMoves, bitMoves]

/-- The closing latch edge is the last move of a SendFrame (rule R55). -/
theorem dropLast_sendFrameMoves (f : Byte) : (sendFrameMoves f).dropLast = shiftMoves f :=
  List.dropLast_concat

/-! ### Frame bits on the LCD's lines (rule R54) -/

/-- Frame bit 4+k is nibble bit k (rules R54, R80). -/
theorem assembleFrame_nibble_bit (nib : Nibble) (rs bl en : Bit) {k : Nat} (hk : k < 4) :
    (assembleFrame nib rs bl en).getLsbD (4 + k) = nib.getLsbD k := by
  conv_rhs => rw [← assembleFrame_nibble nib rs bl en]
  simp [hk]

/-- A bit is on its line as HIGH exactly where it is 1 (rule R80). -/
theorem getLsbD_zero_eq_decide (b : Bit) : b.getLsbD 0 = decide (b = 1) := by
  revert b; decide

/-! ### The two statements -/

/-- Settles O54: the shift stage is the frame after its eight bits, and only the closing move raises LATCH. -/
theorem sendFrameOnLines : Obligations.SendFrameOnLines := by
  intro p f
  refine ⟨rfl, applyAll_sendFrameMoves p f, ?_⟩
  rw [dropLast_sendFrameMoves]
  exact path_q_of_latch_true_notMem (latch_true_notMem_shiftMoves f)

/-- Settles O9, line by line: RS, backlight and E show the frame's bits 1 to 3, and DB4 to DB7 its nibble. -/
theorem outputsDriveLcdLines : Obligations.OutputsDriveLcdLines := by
  intro nib rs bl en
  have hdb {k : Nat} (hk : k < 4) := assembleFrame_nibble_bit nib rs bl en hk
  rw [lcdLines, LcdLines.mk.injEq, assembleFrame_rs, assembleFrame_bl, assembleFrame_en]
  exact ⟨getLsbD_zero_eq_decide rs, getLsbD_zero_eq_decide bl, getLsbD_zero_eq_decide en,
    hdb (k := 0) (by decide), hdb (k := 1) (by decide), hdb (k := 2) (by decide), hdb (k := 3) (by decide)⟩

end Sys2Proof.Machine
end

section
/-! SUPPORT. The request word and the frames (rules R70 to R76, R80 to R86): O1, O2, O3, O4, O50, O51, O5, O6, O7 and O8. -/

namespace Sys2Proof.Machine

/-! ### Reserved words (rule R73) -/

/-- OP selects an operation below 7 (rule R72). -/
theorem exists_operation {op : BitVec 4} (hop : op.toNat < 7) (fnt : Bit) (a b : Byte) :
    ∃ i, operation op fnt a b = some i := by
  unfold operation
  interval_cases op.toNat <;> exact ⟨_, rfl⟩

/-- The decoder rejects exactly the words that one of the five clauses names. -/
theorem exists_decode_error_iff (w : ReqWord) : (∃ r, decode w = .error r) ↔ reservedBy w ≠ none := by
  cases hres : reservedBy w with
  | some r => simp [decode, hres]
  | none =>
    have hlt : (fieldOp w).toNat < 7 := by
      by_contra hge
      simp [reservedBy, Nat.le_of_not_lt hge] at hres
    obtain ⟨i, hop⟩ := exists_operation hlt (fieldFnt w) (fieldA w) (fieldB w)
    simp [(decode_eq_ok_iff w i).2 ⟨hres, hop⟩]

theorem ite_some_ne_none_iff {α : Type} (p : Prop) [Decidable p] (a : α) (o : Option α) :
    (if p then some a else o) ≠ none ↔ p ∨ o ≠ none := by
  by_cases hp : p <;> simp [hp]

/-- The five clauses of rule R73, in order. -/
theorem reservedBy_ne_none_iff (w : ReqWord) :
    reservedBy w ≠ none ↔
      7 ≤ (fieldOp w).toNat ∨ fieldRsv w ≠ 0 ∨ (fieldOp w ≠ 1 ∧ fieldFnt w ≠ 0) ∨ (fieldOp w ≠ 1 ∧ fieldA w ≠ 0) ∨
        ((fieldOp w = 0 ∨ fieldOp w = 5 ∨ fieldOp w = 6) ∧ fieldB w ≠ 0) := by
  simp only [reservedBy, ite_some_ne_none_iff, ne_eq, not_true_eq_false, or_false]

/-! ### The word of a request (rules R72, R75) -/

/-- The rows of rule R72: what OP and the operand fields are where they select the request `i`. -/
theorem operation_cases {op : BitVec 4} {fnt : Bit} {a b : Byte} {i : Instr} (h : operation op fnt a b = some i) :
    (op = 0 ∧ i = .initialise) ∨ (op = 1 ∧ i = .beginLcd a b (Font.ofBit fnt)) ∨ (op = 2 ∧ i = .initNibble b) ∨
      (op = 3 ∧ i = .command b) ∨ (op = 4 ∧ i = .writeChar b) ∨ (op = 5 ∧ i = .backlightOff) ∨
      (op = 6 ∧ i = .backlightOn) := by
  revert h
  simp only [operation]
  split <;> rename_i hop <;> intro h <;> simp_all [BitVec.toNat_eq]

/-- A word with RSV = 0 is made of its other fields. -/
theorem reqWord_fields {w : ReqWord} (hrsv : fieldRsv w = 0) :
    reqWord (fieldOp w) (fieldFnt w) (fieldA w) (fieldB w) = w :=
  word_eq_of_fields (by simp) (by simp) (by simp [hrsv]) (by simp) (by simp)

/-- Encoding a decoded request gives the word back: the fields the request leaves out are 0 (rule R73). -/
theorem encode_of_decode {w : ReqWord} {i : Instr} (h : decode w = .ok i) : encode i = w := by
  obtain ⟨hres, hsel⟩ := (decode_eq_ok_iff w i).1 h
  have hclauses := (reservedBy_ne_none_iff w).not.1 (not_not.2 hres)
  simp only [not_or, not_and, not_not] at hclauses
  obtain ⟨-, hrsv, hfnt, ha, hb⟩ := hclauses
  rw [← reqWord_fields hrsv]
  rcases operation_cases hsel with ⟨hop, rfl⟩ | ⟨hop, rfl⟩ | ⟨hop, rfl⟩ | ⟨hop, rfl⟩ | ⟨hop, rfl⟩ | ⟨hop, rfl⟩ |
    ⟨hop, rfl⟩ <;> simp [encode, hop, hfnt, ha, hb]

/-! ### Words under a row's mask (rule R72) -/

/-- Two words that agree under a mask agree in every field the mask covers. -/
theorem extractLsb'_eq_of_masked {v w mask : ReqWord} (h : v &&& mask = w &&& mask) {start len : Nat}
    (hmask : mask.extractLsb' start len = BitVec.allOnes len) : v.extractLsb' start len = w.extractLsb' start len := by
  have hfield := congrArg (BitVec.extractLsb' start len) h
  simpa only [BitVec.extractLsb'_and, hmask, BitVec.and_allOnes] using hfield

/-- The mask of the rows without operands covers the word. -/
theorem eq_of_masked_all {v w : ReqWord} (h : v &&& 0xFFFFFF = w &&& 0xFFFFFF) : v = w :=
  word_eq_of_fields (extractLsb'_eq_of_masked h (by decide)) (extractLsb'_eq_of_masked h (by decide))
    (extractLsb'_eq_of_masked h (by decide)) (extractLsb'_eq_of_masked h (by decide))
    (extractLsb'_eq_of_masked h (by decide))

/-- The mask of the rows with one value leaves out B. -/
theorem eq_of_masked_value {v w : ReqWord} (h : v &&& 0xFFFF00 = w &&& 0xFFFF00) (hb : fieldB v = fieldB w) : v = w :=
  word_eq_of_fields (extractLsb'_eq_of_masked h (by decide)) (extractLsb'_eq_of_masked h (by decide))
    (extractLsb'_eq_of_masked h (by decide)) (extractLsb'_eq_of_masked h (by decide)) hb

/-- The mask of BEGIN's row leaves out FNT, A and B. -/
theorem eq_of_masked_begin {v w : ReqWord} (h : v &&& 0xF70000 = w &&& 0xF70000) (hfnt : fieldFnt v = fieldFnt w)
    (ha : fieldA v = fieldA w) (hb : fieldB v = fieldB w) : v = w :=
  word_eq_of_fields (extractLsb'_eq_of_masked h (by decide)) hfnt (extractLsb'_eq_of_masked h (by decide)) ha hb

/-- The word of a request is the one word that decodes to it. -/
theorem decode_of_encode_eq {w : ReqWord} {i : Instr} (h : encode i = w) : decode w = .ok i :=
  h ▸ decode_encode i

/-! ### Frames of a request's list (rules R82, R83, R85) -/

theorem frame_mem_events_iff (f : Byte) (as : List Action) :
    .frame f ∈ as.flatMap Action.events ↔ .sendFrame f ∈ as := by
  induction as with
  | nil => simp
  | cons a as ih => cases a <;> simp [Action.events, ih]

/-- The frames of a transmission: one with enable high and one with enable low for each slot's nibble, with the mode's
register-select and the backlight shadow. -/
theorem sendFrame_mem_transmit_iff {p : Params} {bl : Bit} {v : Byte} {m : Mode} {f : Byte} :
    .sendFrame f ∈ transmitActions p bl v m ↔
      ∃ nib ∈ slotNibbles v m, ∃ en, f = assembleFrame nib (registerSelect m) bl en := by
  have hbit (en : Bit) : en = 1 ∨ en = 0 := by revert en; decide
  simp only [transmitActions, slotActions, enableLow_assembleFrame, List.mem_append, List.mem_flatMap, List.mem_cons,
    List.not_mem_nil, Action.sendFrame.injEq, reduceCtorEq, false_or, or_false]
  refine exists_congr fun nib => and_congr_right fun _ => ⟨?_, ?_⟩
  · rintro (rfl | rfl)
    · exact ⟨1, rfl⟩
    · exact ⟨0, rfl⟩
  · rintro ⟨en, rfl⟩
    rcases hbit en with rfl | rfl
    · exact .inl rfl
    · exact .inr rfl

/-- A transmission that is not of a character has RS = 0 in all its frames (rule R83). -/
theorem sendFrame_notMem_transmit {f : Byte} (hrs : f.getLsbD 1 = true) {m : Mode} (hm : registerSelect m = 0)
    (p : Params) (bl : Bit) (v : Byte) : .sendFrame f ∉ transmitActions p bl v m := by
  rw [sendFrame_mem_transmit_iff]
  rintro ⟨nib, -, en, rfl⟩
  rw [assembleFrame_rs, hm] at hrs
  cases hrs

/-- Only WRITE_CHAR's list holds a frame with RS = 1: the others transmit in modes INIT and COMMAND, and INITIALIZE's one frame
is 0. -/
theorem writeChar_of_sendFrame_mem {i : Instr} {s : State} {f : Byte} (hf : .sendFrame f ∈ actionsOf i s)
    (hrs : f.getLsbD 1 = true) : ∃ v, i = .writeChar v := by
  have hinit := sendFrame_notMem_transmit (m := .init) hrs rfl
  have hcommand := sendFrame_notMem_transmit (m := .command) hrs rfl
  have hbacklight (level : Bit) : .sendFrame f ∉ backlightActions level s := by
    unfold backlightActions
    split <;> simp [hcommand]
  cases i with
  | writeChar v => exact ⟨v, rfl⟩
  | initialise =>
    obtain rfl : f = 0 := by simpa [actionsOf, initialiseActions] using hf
    simp at hrs
  | beginLcd cols lines font =>
    simp [actionsOf, beginLcdActions, powerOnWaitActions, bringUpActions, setupActions, hinit, hcommand] at hf
  | initNibble v => simp [actionsOf, initNibbleActions, hinit] at hf
  | command v => simp [actionsOf, commandActions, hcommand] at hf
  | backlightOff => exact absurd hf (hbacklight 0)
  | backlightOn => exact absurd hf (hbacklight 1)

/-- A request emits nothing, or the events of its list (rules R58, R175, R181). -/
theorem exec_trace {i : Instr} {s t : State} (h : exec i s = .next t) :
    t.trace = s.trace ∨ t.trace = s.trace ++ (actionsOf i s).flatMap Action.events := by
  rw [exec_eq_serve] at h
  rcases serve_cases h with ⟨-, rfl⟩ | ⟨-, f, -, rfl⟩ | ⟨-, -, rfl⟩
  · exact .inl rfl
  · exact .inl rfl
  · exact .inr (performAll_trace _ _)

/-- A request that passes its checks emits the frames of its list. -/
theorem exec_emits_frame {i : Instr} {s : State} {f : Byte} (hr : s.ready = true) (hc : checkOf i s = none)
    (hf : .sendFrame f ∈ actionsOf i s) : ∃ t, exec i s = .next t ∧ .frame f ∈ t.trace := by
  refine ⟨_, exec_eq_performAll hr hc, ?_⟩
  rw [performAll_trace]
  exact List.mem_append_right _ ((frame_mem_events_iff f _).2 hf)

/-! ### Every even frame (rule R86) -/

/-- A frame whose bit 0 is 0 is assembled from its own high nibble, RS, BL and E (rule R80). -/
theorem assembleFrame_fields {f : Byte} (h : f.getLsbD 0 = false) :
    assembleFrame (highNibble f) (f.extractLsb' 1 1) (f.extractLsb' 2 1) (f.extractLsb' 3 1) = f := by
  revert f; decide

/-- An idle block with its lines configured and the backlight shadow `bl`, nothing yet emitted in its run. -/
def configuredIdle (bl : Bit) : State := { State.reset with pinsCfg := true, bl := bl }

theorem configuredIdle_inv (bl : Bit) : (configuredIdle bl).Inv := by
  constructor <;> simp [configuredIdle, State.reset, State.powerOn]

/-- A transmission in mode COMMAND or CHARACTER sends its value's high nibble, with either enable. -/
theorem sendFrame_highNibble_mem_transmit (p : Params) (bl en : Bit) (v : Byte) {m : Mode} (hm : m ≠ .init) :
    .sendFrame (assembleFrame (highNibble v) (registerSelect m) bl en) ∈ transmitActions p bl v m := by
  refine sendFrame_mem_transmit_iff.2 ⟨_, ?_, en, rfl⟩
  cases m with
  | init => exact absurd rfl hm
  | command => exact List.mem_cons_self ..
  | character => exact List.mem_cons_self ..

/-- COMMAND and WRITE_CHAR of a value send its high nibble with RS = 0 and RS = 1. -/
theorem exists_request_sending (v : Byte) (rs bl en : Bit) :
    ∃ i, checkOf i (configuredIdle bl) = none ∧
      .sendFrame (assembleFrame (highNibble v) rs bl en) ∈ actionsOf i (configuredIdle bl) := by
  have hbit : rs = 0 ∨ rs = 1 := by revert rs; decide
  rcases hbit with rfl | rfl
  · exact ⟨.command v, rfl,
      List.mem_append_left _ (sendFrame_highNibble_mem_transmit _ bl en v (m := .command) (by decide))⟩
  · exact ⟨.writeChar v, rfl,
      List.mem_append_left _ (sendFrame_highNibble_mem_transmit _ bl en v (m := .character) (by decide))⟩

/-! ### Assembler lines (rule R76) -/

theorem toInstr?_eq_none_iff (l : AsmLine) : l.toInstr? = none ↔ l.wellFormed = false := by
  simp [AsmLine.toInstr?]

theorem fitsField_eq_false_iff (n : Nat) : fitsField n = false ↔ 256 ≤ n := by
  simp [fitsField]

/-! ### The nibble bits of a frame (rules R80, R82) -/

theorem assembleFrame_eq_append (nib : Nibble) (rs bl en : Bit) :
    assembleFrame nib rs bl en = nib ++ en ++ bl ++ rs ++ 0#1 := by
  revert nib rs bl en; decide

theorem assembleFrame_and_nibble (nib : Nibble) (rs bl en : Bit) :
    assembleFrame nib rs bl en &&& 0xF0 = nib.setWidth 8 <<< 4 := by
  revert nib rs bl en; decide

theorem highNibble_placed (v : Byte) : (highNibble v).setWidth 8 <<< 4 = v &&& 0xF0 := by
  revert v; decide

theorem lowNibble_placed (v : Byte) : (lowNibble v).setWidth 8 <<< 4 = v <<< 4 &&& 0xF0 := by
  revert v; decide

/-! ### The statements -/

/-- Settles O1: no word of a request is reserved, and its fields are the request's operands. -/
theorem decodeOfEncode : Obligations.DecodeOfEncode :=
  decode_encode

/-- Settles O2: a word that is not reserved has 0 in every field its request does not give back. -/
theorem encodeOfDecode : Obligations.EncodeOfDecode :=
  fun _ _ => encode_of_decode

/-- Settles O3: a row's match and its operand fields make up the word of its request, and the word of a request is in its
row. -/
theorem rowsSelectRequests : Obligations.RowsSelectRequests := by
  intro w
  refine ⟨fun h => ?initialise, fun h => ?beginLcd, fun h => ?initNibble, fun h => ?command, fun h => ?writeChar,
    fun h => ?backlightOff, fun h => ?backlightOn, ?reserved⟩
  case initialise => exact decode_of_encode_eq (eq_of_masked_all (Laws.TableRow.initialise.trans h.symm))
  case beginLcd =>
    exact decode_of_encode_eq (eq_of_masked_begin ((Laws.TableRow.beginLcd _ _ _).trans h.symm)
      ((fieldFnt_reqWord ..).trans (font_bit_ofBit _)) (fieldA_reqWord ..) (fieldB_reqWord ..))
  case initNibble =>
    exact decode_of_encode_eq (eq_of_masked_value ((Laws.TableRow.initNibble _).trans h.symm) (fieldB_reqWord ..))
  case command =>
    exact decode_of_encode_eq (eq_of_masked_value ((Laws.TableRow.command _).trans h.symm) (fieldB_reqWord ..))
  case writeChar =>
    exact decode_of_encode_eq (eq_of_masked_value ((Laws.TableRow.writeChar _).trans h.symm) (fieldB_reqWord ..))
  case backlightOff => exact decode_of_encode_eq (eq_of_masked_all (Laws.TableRow.backlightOff.trans h.symm))
  case backlightOn => exact decode_of_encode_eq (eq_of_masked_all (Laws.TableRow.backlightOn.trans h.symm))
  case reserved =>
    cases hd : decode w with
    | error r => exact .inl ⟨r, rfl⟩
    | ok i =>
      obtain rfl := encode_of_decode hd
      right
      cases i with
      | initialise => exact .inl Laws.TableRow.initialise
      | beginLcd cols lines font => exact .inr (.inl (Laws.TableRow.beginLcd cols lines font))
      | initNibble v => exact .inr (.inr (.inl (Laws.TableRow.initNibble v)))
      | command v => exact .inr (.inr (.inr (.inl (Laws.TableRow.command v))))
      | writeChar v => exact .inr (.inr (.inr (.inr (.inl (Laws.TableRow.writeChar v)))))
      | backlightOff => exact .inr (.inr (.inr (.inr (.inr (.inl Laws.TableRow.backlightOff)))))
      | backlightOn => exact .inr (.inr (.inr (.inr (.inr (.inr Laws.TableRow.backlightOn)))))

/-- Settles O4: the decoder's tests are the five clauses, and no sixth reason is left. -/
theorem reservedWords : Obligations.ReservedWords :=
  fun w => (exists_decode_error_iff w).trans (reservedBy_ne_none_iff w)

/-- Settles O50, by the frames in each request's list. -/
theorem dataFramesOnlyFromWriteChar : Obligations.DataFramesOnlyFromWriteChar := by
  intro s t i h
  rcases exec_trace h with htrace | htrace
  · exact ⟨[], by simpa using htrace, by simp⟩
  · exact ⟨_, htrace, fun f hf => writeChar_of_sendFrame_mem ((frame_mem_events_iff f _).1 hf)⟩

/-- Settles O51: the frame's own value, sent as a COMMAND or WRITE_CHAR by a block with the frame's BL, has it in its first
slot. -/
theorem everyEvenFrameOccurs : Obligations.EveryEvenFrameOccurs := by
  intro f hf
  obtain ⟨i, hc, hmem⟩ := exists_request_sending f (f.extractLsb' 1 1) (f.extractLsb' 2 1) (f.extractLsb' 3 1)
  rw [assembleFrame_fields hf] at hmem
  obtain ⟨t, hexec, hframe⟩ := exec_emits_frame rfl hc hmem
  exact ⟨_, t, i, configuredIdle_inv _, rfl, rfl, hexec, List.not_mem_nil, hframe⟩

/-- Settles O5, by running the decoder. -/
theorem vectorWordsDecode : Obligations.VectorWordsDecode := by
  unfold Obligations.VectorWordsDecode
  decide

/-- Settles O6: a line is a request where its operands fit, and an operand fits below 256. -/
theorem oversizedOperandIsNoRequest : Obligations.OversizedOperandIsNoRequest := by
  intro m n font
  simp only [toInstr?_eq_none_iff, AsmLine.wellFormed, Bool.and_eq_false_iff, fitsField_eq_false_iff, and_self]

/-- Settles O7, by the layout of the frame and the lines its bits are on (O9). -/
theorem frameFields : Obligations.FrameFields := by
  intro nib rs bl en
  rw [outputsDriveLcdLines nib rs bl en]
  exact ⟨assembleFrame_eq_append nib rs bl en, decide_eq_true_iff, decide_eq_true_iff, decide_eq_true_iff⟩

/-- Settles O8: the mask leaves the nibble, which is the value's high or low one. -/
theorem nibblePlacement : Obligations.NibblePlacement := by
  intro value rs bl en
  exact ⟨(assembleFrame_and_nibble ..).trans (highNibble_placed value),
    (assembleFrame_and_nibble ..).trans (lowNibble_placed value)⟩

end Sys2Proof.Machine
end

section
/-! SUPPORT. The initialization sequencer's requests and the lengths of all requests (rules R100 to R107): O16, O17, O24
and O42. -/

namespace Sys2Proof.Machine

/-! ### What BEGIN resolves and sends (rules R101, R102) -/

/-- One is the only line count below 2 that BEGIN accepts (rule R103). -/
theorem not_two_le_iff {lines : Byte} (hne : lines ≠ 0) : ¬2 ≤ lines.toNat ↔ lines = 1 := by
  bv_omega

/-- The FUNCTION-SET byte with the line mode and font of rule R102: two lines, or one with the large or the small font. -/
theorem functionSetByte_resolved {lines : Byte} (font : Font) (hne : lines ≠ 0) :
    functionSetByte (lineMode lines) (resolvedFont font lines) =
      if 2 ≤ lines.toNat then 0x28 else if font = Font.large then 0x24 else 0x20 := by
  by_cases htwo : 2 ≤ lines.toNat
  · have hsmall : resolvedFont font lines = 0 := if_neg fun hlarge => (not_two_le_iff hne).2 hlarge.2 htwo
    rw [lineMode, if_pos htwo, if_pos htwo, hsmall]
    rfl
  · obtain rfl := (not_two_le_iff hne).1 htwo
    cases font <;> decide

/-- A shadow that holds a condition's bit is 1 where the condition holds (rule R9). -/
theorem flag_eq_one_iff (p : Prop) [Decidable p] : some (if p then 1 else 0 : Bit) = some 1 ↔ p := by
  by_cases hp : p <;> simp [hp]

theorem flag_eq_zero_iff (p : Prop) [Decidable p] : some (if p then 1 else 0 : Bit) = some 0 ↔ ¬p := by
  by_cases hp : p <;> simp [hp]

/-- The last frame of BEGIN: slot 1 of DISPLAY-CONTROL 0x0C, enable low (rule R101). -/
theorem assembleFrame_displayOn (bl : Bit) : assembleFrame 0xC 0 bl 0 = 0xC0 ||| bl.setWidth 8 <<< 2 := by
  revert bl; decide

/-! ### How long a list of events is (rule R107) -/

/-- The frames, the delays and the least time of a list of events, a line of rule R107's table. -/
def lengthsOf (es : List Event) : Nat × Nat × Nat :=
  ((framesOf es).length, (delaysOf es).length, leastMicroseconds es)

@[simp] theorem lengthsOf_append (a b : List Event) : lengthsOf (a ++ b) = lengthsOf a + lengthsOf b := by
  simp [lengthsOf, leastMicroseconds]

theorem lengthsOf_delays (n d : Nat) : lengthsOf (List.replicate n (.delay d)) = (0, n, n * d) := by
  simp [lengthsOf, leastMicroseconds, framesOf_delays, delaysOf_delays]

/-- The lengths of the events a list of actions emits. -/
def actionLengths (as : List Action) : Nat × Nat × Nat :=
  lengthsOf (as.flatMap Action.events)

theorem actionLengths_append (as bs : List Action) :
    actionLengths (as ++ bs) = actionLengths as + actionLengths bs := by
  simp [actionLengths]

theorem actionLengths_nil : actionLengths [] = 0 := rfl

theorem actionLengths_set_cons (w : Write) (as : List Action) :
    actionLengths (.set w :: as) = actionLengths as := rfl

theorem actionLengths_wait_cons (d : Nat) (as : List Action) :
    actionLengths (.wait d :: as) = (0, 1, d) + actionLengths as :=
  actionLengths_append [.wait d] as

/-- `Done` is no frame and takes no time. -/
theorem actionLengths_done (n : Byte) : actionLengths [.done n] = 0 := rfl

theorem actionLengths_append_done (as : List Action) (n : Byte) :
    actionLengths (as ++ [.done n]) = actionLengths as :=
  actionLengths_append as [.done n]

theorem actionLengths_waits (n d : Nat) : actionLengths (List.replicate n (.wait d)) = (0, n, n * d) := by
  rw [actionLengths, List.flatMap_replicate, Action.events, List.flatten_replicate_singleton, lengthsOf_delays]

/-- One slot and the settle wait (rules R87, R131). -/
theorem actionLengths_transmit_init (p : Params) (bl : Bit) (value : Byte) :
    actionLengths (transmitActions p bl value .init) = (2, 2, p.tEn + 60) := rfl

/-- Two slots and the settle wait, in either mode that has two slots (rules R53, R131). -/
theorem actionLengths_transmit_byte (p : Params) (bl : Bit) (value : Byte) {m : Mode} (hm : m ≠ .init) :
    actionLengths (transmitActions p bl value m) = (4, 3, 2 * p.tEn + 60) := by
  rw [two_mul, add_assoc]
  cases m with
  | init => exact absurd rfl hm
  | command => rfl
  | character => rfl

/-- BEGIN steps 2 to 5: four nibbles and their waits (rules R91, R101). -/
theorem actionLengths_bringUp (p : Params) (bl : Bit) :
    actionLengths (bringUpActions p bl) =
      (8, 12, 4 * (p.tEn + 60) + (p.tInit1 + p.tInit2 + p.tInit3 + p.tInit4)) := by
  simp only [bringUpActions, actionLengths_append, actionLengths_transmit_init, actionLengths_wait_cons,
    actionLengths_nil, Prod.mk_add_mk, add_zero, Prod.mk.injEq, true_and]
  omega

/-- BEGIN steps 6 to 10: five bytes and the wait after CLEAR-DISPLAY (rules R101, R196). -/
theorem actionLengths_setup (p : Params) (bl twoLine font : Bit) :
    actionLengths (setupActions p bl twoLine font) = (20, 16, 5 * (2 * p.tEn + 60) + p.tClear) := by
  have hbyte (v : Byte) := actionLengths_transmit_byte p bl v (m := .command) (by decide)
  simp only [setupActions, actionLengths_append, hbyte, actionLengths_wait_cons, actionLengths_set_cons,
    actionLengths_nil, Prod.mk_add_mk, add_zero, zero_add, Prod.mk.injEq, true_and]
  omega

/-- BEGIN: the 200 power-on waits, the bring-up and the commands (rules R101, R197). -/
theorem actionLengths_beginLcd (cols lines : Byte) (font : Font) (s : State) :
    actionLengths (beginLcdActions cols lines font s) =
      (28, 228, 200000 + (4 * (s.cfg.tEn + 60) + (s.cfg.tInit1 + s.cfg.tInit2 + s.cfg.tInit3 + s.cfg.tInit4))
        + (5 * (2 * s.cfg.tEn + 60) + s.cfg.tClear)) := by
  simp only [beginLcdActions, powerOnWaitActions, Config.nPor, Config.tPorStep, actionLengths_append,
    actionLengths_set_cons, actionLengths_nil, actionLengths_waits, actionLengths_bringUp, actionLengths_setup,
    actionLengths_done, zero_add, add_zero, Prod.mk_add_mk]

/-- A backlight request's list: one byte (rules R160, R161). -/
theorem actionLengths_backlight {i : Instr} {s : State} (level : Bit) (hc : backlightCheck i s = none) :
    actionLengths (backlightActions level s) = (4, 3, 2 * s.cfg.tEn + 60) := by
  obtain ⟨byte, hlist⟩ :=
    backlightActions_eq level s ((displayShadowCheck_eq_none_iff i s).1 ((firstFault_eq_none_iff _ _).1 hc).2)
  rw [hlist, actionLengths_append_done, actionLengths_set_cons, actionLengths_transmit_byte _ _ _ (by decide)]

/-- A request that passes its checks emits its list's events: some that hold no `Done`, then its one `Done` (rules R29,
R107). -/
theorem exec_emits_body {i : Instr} {s t : State} (hr : s.ready = true) (hc : checkOf i s = none)
    (h : exec i s = .next t) :
    ∃ es n, t.trace = s.trace ++ es ++ [.done n] ∧ donesOf es = [] ∧ lengthsOf es = actionLengths (actionsOf i s) := by
  rw [exec_eq_performAll hr hc] at h
  obtain rfl := Host.Outcome.next.inj h
  obtain ⟨body, n, hlist, hbody⟩ := actionsOf_shape i s hc
  refine ⟨body.flatMap Action.events, n, ?_, donesOf_events_of_body body hbody, ?_⟩
  · rw [performAll_trace, hlist, List.flatMap_append, List.append_assoc]
    rfl
  · rw [hlist, actionLengths_append_done, actionLengths]

/-! ### The statements -/

/-- Settles O17, by the state BEGIN's list leaves, with its FUNCTION-SET byte and its last frame as numbers. -/
theorem beginCompletes : Obligations.BeginCompletes := by
  intro s cols lines font hr hp hne
  rw [exec_eq_performAll hr ((beginLcdCheck_eq_none_iff cols lines font s).2 ⟨hp, hne⟩), actionsOf, performAll_beginLcd,
    functionSetByte_resolved font hne, assembleFrame_displayOn]
  rfl

/-- Settles O24: the line mode and the font that BEGIN leaves (O17), where `lines = 1` is the one line count below 2. -/
theorem lineModeAndFont : Obligations.LineModeAndFont := by
  intro s t cols lines font hr hp hne h
  rw [beginCompletes s cols lines font hr hp hne] at h
  obtain rfl := Host.Outcome.next.inj h
  have hone : lines = 1 ↔ lines.toNat = 1 := BitVec.toNat_inj.symm
  have hlarge : font = Font.large ∧ lines = 1 ↔ font = Font.large ∧ lines.toNat = 1 := and_congr_right fun _ => hone
  exact ⟨flag_eq_one_iff _, (flag_eq_zero_iff _).trans ((not_two_le_iff hne).trans hone),
    (flag_eq_one_iff _).trans hlarge, (flag_eq_zero_iff _).trans hlarge.not⟩

/-- Settles O42, by the lengths of the request's list. -/
theorem requestLengths : Obligations.RequestLengths := by
  intro s t i hcfg hr hc h
  obtain ⟨es, n, htrace, hdones, hlengths⟩ := exec_emits_body hr hc h
  refine ⟨es, n, htrace, hdones, hlengths.trans ?_⟩
  have hdefault : 2 * s.cfg.tEn + 60 = 62 := by rw [hcfg]; rfl
  have hbyte (v : Byte) {m : Mode} (hm : m ≠ .init) := actionLengths_transmit_byte s.cfg s.bl v hm
  rw [hdefault] at hbyte
  cases i with
  | initialise => rfl
  | beginLcd cols lines font => exact (actionLengths_beginLcd cols lines font s).trans (by rw [hcfg]; rfl)
  | initNibble value =>
    exact (actionLengths_append_done _ _).trans ((actionLengths_transmit_init ..).trans (by rw [hcfg]; rfl))
  | command value => exact (actionLengths_append_done _ _).trans (hbyte value (by decide))
  | writeChar value => exact (actionLengths_append_done _ _).trans (hbyte value (by decide))
  | backlightOff => exact (actionLengths_backlight 0 hc).trans (by rw [hdefault])
  | backlightOn => exact (actionLengths_backlight 1 hc).trans (by rw [hdefault])

/-- Settles O16, by running INITIALIZE's three actions. -/
theorem initialiseCompletes : Obligations.InitialiseCompletes :=
  fun _ hr => exec_eq_performAll (i := .initialise) hr rfl

end Sys2Proof.Machine
end

section
/-! SUPPORT. The transmission requests (rules R130 to R136): O18, O19, O20, O25, O37 and O38. -/

namespace Sys2Proof.Machine

/-! ### One transmission request for each mode (rules R131 to R133, R135) -/

/-- The request that transmits `value` in a mode. -/
def Mode.request (value : Byte) : Mode → Instr
  | .init => .initNibble value
  | .command => .command value
  | .character => .writeChar value

/-- The count that a mode's request returns. -/
def Mode.count : Mode → Byte
  | .init => 0
  | .command => 0
  | .character => 1

/-- The events of a transmission: its slots in order, then the settle delay. -/
def transmissionEvents (p : Params) (bl : Bit) (value : Byte) (m : Mode) : List Event :=
  (slotNibbles value m).flatMap (slotEvents p bl (registerSelect m)) ++ [.delay 60]

/-- A mode's request has no check but that the lines are configured (rule R171). -/
theorem checkOf_request {s : State} (m : Mode) (value : Byte) (hp : s.pinsCfg = true) :
    checkOf (m.request value) s = none := by
  cases m <;> exact (configuredCheck_eq_none_iff _ s).2 hp

theorem actionsOf_request (s : State) (m : Mode) (value : Byte) :
    actionsOf (m.request value) s = transmitActions s.cfg s.bl value m ++ [.done m.count] := by
  cases m <;> rfl

/-- What a transmission and its `Done` leave, in every mode. -/
theorem performAll_transmit_done (s : State) (i : Instr) (value : Byte) (m : Mode) (n : Byte) :
    (s.accept i).performAll (transmitActions s.cfg s.bl value m ++ [.done n]) =
      s.completed (transmissionEvents s.cfg s.bl value m) (assembleFrame (lowNibble value) (registerSelect m) s.bl 0)
        n := by
  rw [performAll_append]
  cases m with
  | init => rw [performAll_transmit_init]; rfl
  | command => rw [performAll_transmit_command]; rfl
  | character => rw [performAll_transmit_character]; rfl

/-- A transmission request completes from every ready, configured state. -/
theorem exec_request {s : State} (m : Mode) (value : Byte) (hr : s.ready = true) (hp : s.pinsCfg = true) :
    exec (m.request value) s = .next
      (s.completed (transmissionEvents s.cfg s.bl value m) (assembleFrame (lowNibble value) (registerSelect m) s.bl 0)
        m.count) := by
  rw [exec_eq_performAll hr (checkOf_request m value hp), actionsOf_request, performAll_transmit_done]

/-- The events that a transmission request adds to the run. -/
theorem exec_request_trace {s t : State} {m : Mode} {value : Byte} (hr : s.ready = true) (hp : s.pinsCfg = true)
    (h : exec (m.request value) s = .next t) :
    t.trace = s.trace ++ (transmissionEvents s.cfg s.bl value m ++ [.done m.count]) := by
  rw [exec_request m value hr hp] at h
  obtain rfl := Host.Outcome.next.inj h
  exact List.append_assoc ..

/-! ### The low nibble (rules R82, R176) -/

theorem lowNibble_and_mask (value : Byte) : lowNibble (value &&& 0x0F) = lowNibble value := by
  revert value; decide

theorem setWidth_lowNibble (value : Byte) : (lowNibble value).setWidth 8 = value &&& 0x0F := by
  revert value; decide

/-! ### The frames of a transmission (rule R136) -/

/-- The frames of a two-slot transmission: high nibble, then low nibble, each with enable high and then low. -/
theorem framesOf_transmission_byte (p : Params) (bl : Bit) (value n : Byte) {m : Mode} (hm : m ≠ .init) :
    framesOf (transmissionEvents p bl value m ++ [.done n]) =
      [assembleFrame (highNibble value) (registerSelect m) bl 1,
        assembleFrame (highNibble value) (registerSelect m) bl 0,
        assembleFrame (lowNibble value) (registerSelect m) bl 1,
        assembleFrame (lowNibble value) (registerSelect m) bl 0] := by
  cases m with
  | init => exact absurd rfl hm
  | command => rfl
  | character => rfl

/-- The frames of a one-slot transmission. -/
theorem framesOf_transmission_init (p : Params) (bl : Bit) (value n : Byte) :
    framesOf (transmissionEvents p bl value .init ++ [.done n]) =
      [assembleFrame (lowNibble value) 0 bl 1, assembleFrame (lowNibble value) 0 bl 0] := rfl

/-- Among the modes, register-select is 1 exactly for the one WRITE_CHAR transmits in (rule R83). -/
theorem registerSelect_iff_writeChar (m : Mode) (value : Byte) :
    (registerSelect m).getLsbD 0 = true ↔ m.request value = .writeChar value := by
  cases m <;> simp [registerSelect, Mode.request]

/-! ### The latches of a transmission (rule R134) -/

/-- A frame with enable high latches nothing, whatever the outputs showed. -/
theorem latchOf_enableHigh (q : Option Byte) {f : Byte} (hf : f.getLsbD 3 = true) : latchOf q f = none := by
  simp [latchOf, hf]

/-- The falling edge of enable latches the frame's register-select and nibble. -/
theorem latchOf_fallingEdge (nib : Nibble) (rs bl : Bit) :
    latchOf (some (assembleFrame nib rs bl 1)) (assembleFrame nib rs bl 0) = some ⟨rs.getLsbD 0, nib⟩ := by
  rw [latchOf, enableWasHigh, assembleFrame_en, assembleFrame_en, assembleFrame_rs, assembleFrame_nibble]
  rfl

/-- A slot makes one latch, whatever the outputs showed before it. -/
theorem latches_slotEvents_append (q : Option Byte) (p : Params) (bl rs : Bit) (nib : Nibble) (rest : List Event) :
    latches q (slotEvents p bl rs nib ++ rest) =
      ⟨rs.getLsbD 0, nib⟩ :: latches (some (assembleFrame nib rs bl 0)) rest := by
  have hrise : latchOf q (assembleFrame nib rs bl 1) = none := latchOf_enableHigh q (assembleFrame_en ..)
  simp only [slotEvents, List.cons_append, List.nil_append, latches, hrise, latchOf_fallingEdge, Option.toList]

/-- Slots make one latch each, in order, where no frame follows them. -/
theorem latches_slots_append (q : Option Byte) (p : Params) (bl rs : Bit) (nibs : List Nibble) {rest : List Event}
    (hrest : ∀ q, latches q rest = []) :
    latches q (nibs.flatMap (slotEvents p bl rs) ++ rest) = nibs.map (⟨rs.getLsbD 0, ·⟩) := by
  induction nibs generalizing q with
  | nil => exact hrest q
  | cons nib nibs ih =>
    rw [List.flatMap_cons, List.append_assoc, latches_slotEvents_append, ih, List.map_cons]

/-- A transmission request makes one latch for each of its slots. -/
theorem exec_request_latches {s t : State} {m : Mode} {value : Byte} (q : Option Byte) (hr : s.ready = true)
    (hp : s.pinsCfg = true) (h : exec (m.request value) s = .next t) :
    ∃ es, t.trace = s.trace ++ es ∧
      latches q es = (slotNibbles value m).map (⟨(registerSelect m).getLsbD 0, ·⟩) := by
  refine ⟨_, exec_request_trace hr hp h, ?_⟩
  rw [transmissionEvents, List.append_assoc]
  exact latches_slots_append q _ _ _ _ fun _ => rfl

/-! ### The statements -/

/-- Settles O18: the request of mode INIT. -/
theorem initNibbleCompletes : Obligations.InitNibbleCompletes :=
  fun _ value => exec_request .init value

/-- Settles O19: the request of mode COMMAND. -/
theorem commandCompletes : Obligations.CommandCompletes :=
  fun _ value => exec_request .command value

/-- Settles O20: the request of mode CHARACTER. -/
theorem writeCharCompletes : Obligations.WriteCharCompletes :=
  fun _ value => exec_request .character value

/-- Settles O25: an unready block answers itself to both, and a ready one sends the low nibble only (O18). -/
theorem initNibbleIgnoresHighBits : Obligations.InitNibbleIgnoresHighBits := by
  intro s value hp
  cases hr : s.ready with
  | false => rw [unreadyBlockRunsNothing _ _ hr, unreadyBlockRunsNothing _ _ hr]
  | true => rw [initNibbleCompletes s value hr hp, initNibbleCompletes s _ hr hp, lowNibble_and_mask]

/-- Settles O37: the frames are written out, and each is assembled from a nibble, the mode's register-select and BL. -/
theorem transmissionFrames : Obligations.TransmissionFrames := by
  intro s t value hr hp
  refine ⟨fun i hi h => ?byte, fun h => ?nibble⟩
  case byte =>
    obtain ⟨m, hm, rfl⟩ : ∃ m : Mode, m ≠ .init ∧ i = m.request value := by
      rcases hi with rfl | rfl
      · exact ⟨.command, by decide, rfl⟩
      · exact ⟨.character, by decide, rfl⟩
    have hframes := framesOf_transmission_byte s.cfg s.bl value m.count hm
    refine ⟨_, _, _, _, _, exec_request_trace hr hp h, hframes, ?_, ?_, (enableLow_assembleFrame ..).symm,
      (enableLow_assembleFrame ..).symm, assembleFrame_en .., assembleFrame_en ..⟩
    · rw [hframes]
      simp only [List.forall_mem_cons, assembleFrame_rs, assembleFrame_bl, assembleFrame_bit0,
        registerSelect_iff_writeChar m value]
      simp
    · rw [assembleFrame_nibble, assembleFrame_nibble, highNibble_append_lowNibble]
  case nibble =>
    have hframes := framesOf_transmission_init s.cfg s.bl value (Mode.count .init)
    refine ⟨_, _, _, exec_request_trace (m := .init) hr hp h, hframes, ?_, (enableLow_assembleFrame ..).symm,
      assembleFrame_en ..⟩
    rw [hframes]
    simp only [List.forall_mem_cons, assembleFrame_nibble, setWidth_lowNibble, assembleFrame_rs, assembleFrame_bl,
      assembleFrame_bit0]
    simp

/-- Settles O38, mode by mode: the latches are those of the mode's slots. -/
theorem oneLatchPerSlot : Obligations.OneLatchPerSlot := by
  intro s t q value hr hp
  exact ⟨exec_request_latches (m := .init) q hr hp, exec_request_latches (m := .command) q hr hp,
    exec_request_latches (m := .character) q hr hp⟩

end Sys2Proof.Machine
end

section
/-! SUPPORT. The backlight requests (rules R160 to R162): O21, O22 and O43. -/

namespace Sys2Proof.Machine

/-! ### One request for each level (rules R160, R161) -/

/-- `i` is the backlight request that sets BL to `level`. -/
def setsBacklight (i : Instr) (level : Bit) : Prop :=
  (i = .backlightOff ∧ level = 0) ∨ (i = .backlightOn ∧ level = 1)

/-- The two backlight requests differ in the level only: checks and list are the same functions of it. -/
theorem checkOf_actionsOf_of_setsBacklight {i : Instr} {level : Bit} (hi : setsBacklight i level) (s : State) :
    checkOf i s = backlightCheck i s ∧ actionsOf i s = backlightActions level s := by
  rcases hi with ⟨rfl, rfl⟩ | ⟨rfl, rfl⟩
  · exact ⟨rfl, rfl⟩
  · exact ⟨rfl, rfl⟩

/-- The checks of a backlight request: configured lines, and D, C and B written (rules R171, R173). -/
theorem backlightCheck_eq_none_iff (i : Instr) (s : State) :
    backlightCheck i s = none ↔
      s.pinsCfg = true ∧ s.shadowD ≠ none ∧ s.shadowC ≠ none ∧ s.shadowB ≠ none := by
  rw [backlightCheck, firstFault_eq_none_iff, configuredCheck_eq_none_iff, displayShadowCheck_eq_none_iff]

/-- The nibble that a re-sent DISPLAY-CONTROL leaves at the outputs (rules R82, R90). -/
theorem lowNibble_displayControlByte (d c b : Bit) :
    lowNibble (displayControlByte d c b) =
      0x8 ||| d.setWidth 4 <<< 2 ||| c.setWidth 4 <<< 1 ||| b.setWidth 4 := by
  revert d c b; decide

/-- A backlight request that is served completes wherever D, C and B have been written. -/
theorem exec_backlight {s : State} {i : Instr} {level d c b : Bit} (hi : setsBacklight i level)
    (hr : s.ready = true) (hp : s.pinsCfg = true) (hd : s.shadowD = some d) (hc : s.shadowC = some c)
    (hb : s.shadowB = some b) :
    exec i s = .next
      ({ s with bl := level : State }.completed (byteEvents s.cfg level 0 (displayControlByte d c b))
        (assembleFrame (0x8 ||| d.setWidth 4 <<< 2 ||| c.setWidth 4 <<< 1 ||| b.setWidth 4) 0 level 0) 0) := by
  obtain ⟨hcheck, hlist⟩ := checkOf_actionsOf_of_setsBacklight hi s
  have hpass : checkOf i s = none := by
    rw [hcheck, backlightCheck_eq_none_iff, hd, hc, hb]
    exact ⟨hp, Option.some_ne_none d, Option.some_ne_none c, Option.some_ne_none b⟩
  rw [exec_eq_performAll hr hpass, hlist, performAll_backlight s i level d c b hd hc hb, lowNibble_displayControlByte]

/-- A two-slot transmission is four frames, each with the backlight bit it was assembled with (rules R80, R84, R131). -/
theorem exists_four_frames_of_byteEvents (p : Params) (bl rs : Bit) (value n : Byte) :
    ∃ f0 f1 f2 f3, framesOf (byteEvents p bl rs value ++ [.done n]) = [f0, f1, f2, f3] ∧
      ∀ f ∈ framesOf (byteEvents p bl rs value ++ [.done n]), f.getLsbD 2 = bl.getLsbD 0 := by
  refine ⟨_, _, _, _, rfl, ?_⟩
  simp only [byteEvents, slotEvents, List.cons_append, List.nil_append, framesOf, List.forall_mem_cons,
    assembleFrame_bl, List.not_mem_nil, false_implies, implies_true, and_self]

/-! ### The statements -/

/-- Settles O21: the backlight request of level 0. -/
theorem backlightOffCompletes : Obligations.BacklightOffCompletes :=
  fun _ _ _ _ => exec_backlight (.inl ⟨rfl, rfl⟩)

/-- Settles O22: the backlight request of level 1. -/
theorem backlightOnCompletes : Obligations.BacklightOnCompletes :=
  fun _ _ _ _ => exec_backlight (.inr ⟨rfl, rfl⟩)

/-- Settles O43: the next state is written out (O21, O22), and each of its four frames is assembled with the new BL. -/
theorem backlightKeepsShadows : Obligations.BacklightKeepsShadows := by
  intro s t i level hi hr hcheck h
  rw [(checkOf_actionsOf_of_setsBacklight hi s).1] at hcheck
  obtain ⟨d, c, b, hd, hc, hb⟩ := exists_shadow_of_backlightCheck hcheck
  rw [exec_backlight hi hr ((backlightCheck_eq_none_iff i s).1 hcheck).1 hd hc hb] at h
  obtain rfl := Host.Outcome.next.inj h
  obtain ⟨f0, f1, f2, f3, hframes, hbl⟩ :=
    exists_four_frames_of_byteEvents s.cfg level 0 (displayControlByte d c b) 0
  exact ⟨rfl, rfl, rfl, rfl, rfl, rfl, rfl, rfl, rfl, rfl, _, f0, f1, f2, f3, List.append_assoc .., hframes, hbl⟩

end Sys2Proof.Machine
end

section
/-! SUPPORT. The model faults and the block's own time (rules R170 to R186): O10, O11, O12, O15, O26, O27, O28, O29 and O30. -/

namespace Sys2Proof.Machine

/-! ### Taking a fault (rules R171 to R175) -/

/-- A request whose check fails takes that fault at acceptance (rules R175, R178). -/
theorem exec_takes_fault {i : Instr} {s : State} {f : Fault} (hr : s.ready = true) (hc : checkOf i s = some f) :
    ∃ t, exec i s = .next t ∧ s.faultTaken f t := by
  rw [exec_eq_serve, hc]
  exact ⟨s.raise f, serve_fault i f _ hr, rfl⟩

/-- Before the lines are configured the first check decides (rules R171, R178). -/
theorem firstFault_of_unconfigured (i : Instr) {s : State} (hp : s.pinsCfg = false) (second : Option Fault) :
    firstFault (configuredCheck i s) second = some (.notConfigured (encode i)) := by
  simp [firstFault, configuredCheck, hp]

/-- Behind configured lines the second check decides (rule R178). -/
theorem firstFault_of_configured (i : Instr) {s : State} (hp : s.pinsCfg = true) (second : Option Fault) :
    firstFault (configuredCheck i s) second = second := by
  simp [firstFault, configuredCheck, hp]

/-- The configured check comes first in every request that has one (rules R171, R178). -/
theorem checkOf_of_unconfigured {i : Instr} {s : State} (hi : i ≠ .initialise) (hp : s.pinsCfg = false) :
    checkOf i s = some (.notConfigured (encode i)) := by
  have hfirst : configuredCheck i s = some (.notConfigured (encode i)) := by
    simp [configuredCheck, hp]
  cases i with
  | initialise => exact absurd rfl hi
  | beginLcd cols lines font => exact firstFault_of_unconfigured _ hp _
  | initNibble value => exact hfirst
  | command value => exact hfirst
  | writeChar value => exact hfirst
  | backlightOff => exact firstFault_of_unconfigured _ hp _
  | backlightOn => exact firstFault_of_unconfigured _ hp _

/-- Behind configured lines a backlight request's check is its reading of D, C and B (rules R160, R161, R173). -/
theorem checkOf_backlight_of_configured {i : Instr} {s : State} (hi : i = .backlightOff ∨ i = .backlightOn)
    (hp : s.pinsCfg = true) : checkOf i s = displayShadowCheck i s := by
  rcases hi with rfl | rfl
  · exact firstFault_of_configured .backlightOff hp _
  · exact firstFault_of_configured .backlightOn hp _

/-- No request but the backlight requests reads the display-control shadow (rule R173). -/
theorem checkOf_ne_unwrittenShadow {i : Instr} {s : State} (hoff : i ≠ .backlightOff) (hon : i ≠ .backlightOn)
    (hp : s.pinsCfg = true) (w : ReqWord) (e : ShadowName) : checkOf i s ≠ some (.unwrittenShadow w e) := by
  have hfirst : configuredCheck i s ≠ some (.unwrittenShadow w e) := by
    simp [(configuredCheck_eq_none_iff i s).2 hp]
  cases i with
  | initialise => simp [checkOf]
  | beginLcd cols lines font =>
    rw [checkOf, beginLcdCheck, firstFault_of_configured _ hp]
    split <;> simp
  | initNibble value => exact hfirst
  | command value => exact hfirst
  | writeChar value => exact hfirst
  | backlightOff => exact absurd rfl hoff
  | backlightOn => exact absurd rfl hon

/-! ### A presented word at a ready block (rule R181) -/

/-- A word to be run to its end goes to the service (rule R60). -/
theorem turn_request {s : State} {w : ReqWord} {rest : List HostMove} (hm : s.host = .request w :: rest)
    (hr : s.ready = true) : s.turn = .serves w (s.afterMove rest) := by
  simp [State.turn, comingMoves_of_ready hr, hm, hr]

/-- A word to be watched action by action is accepted (rule R106). -/
theorem step_requestStepwise_word {s : State} {w : ReqWord} {rest : List HostMove}
    (hm : s.host = .requestStepwise w :: rest) (hr : s.ready = true) :
    step s = .next ((s.afterMove rest).acceptWord w) := by
  simp [step, State.turn, comingMoves_of_ready hr, hm, hr]

/-! ### The block's own transition (rules R175, R181, R186) -/

/-- A block makes a transition of its own where its host has no move to make. -/
theorem turn_of_no_move {s : State} (hm : s.host = []) : s.turn = s.ownTurn := by
  simp [State.turn, comingMoves_nil hm]

/-- So does an unready block whose host holds words only. -/
theorem turn_of_words_held {s : State} (hr : s.ready = false) (hw : ∀ x ∈ s.host, x.isWord = true) :
    s.turn = s.ownTurn := by
  have hcoming : s.comingMoves = s.host := (comingMoves_of_not_ready hr).trans (pastWords_words s.host hw)
  cases hm : s.host with
  | nil => exact turn_of_no_move hm
  | cons m rest =>
    have hword := hw m (hm ▸ List.mem_cons_self ..)
    rw [hm] at hcoming
    cases m with
    | request w => simp [State.turn, hcoming, hr]
    | requestStepwise w => simp [State.turn, hcoming, hr]
    | pass | assertReset | releaseReset => cases hword

/-- The words an unready block's host holds do not keep back the move behind them. -/
theorem comingMoves_behind_words {s : State} {m : HostMove} {words rest : List HostMove} (hr : s.ready = false)
    (hm : m.isWord = false) (hw : ∀ x ∈ words, x.isWord = true) (hhost : s.host = words ++ m :: rest) :
    s.comingMoves = m :: (words ++ rest) := by
  rw [comingMoves_of_not_ready hr, hhost, pastWords_append hm words rest hw]

theorem ownTurn_of_fault {s : State} {f : Fault} (hf : s.fault = some f) (hr : s.rst = false) :
    s.ownTurn = .stopped f := by
  simp [State.ownTurn, hf, hr]

theorem passTurn_of_fault {s : State} {f : Fault} (hf : s.fault = some f) (hr : s.rst = false) :
    s.passTurn = .moved s := by
  rw [State.passTurn, ownTurn_of_fault hf hr]

/-- A faulted block is busy, so it takes no word, and it is out of reset (rules R175, R179). -/
theorem State.Inv.busy_of_fault {s : State} {f : Fault} (hinv : s.Inv) (hf : s.fault = some f) :
    s.busy = true ∧ s.ready = false ∧ s.rst = false := by
  have hne : s.fault ≠ none := by simp [hf]
  have hbusy : s.busy = true := hinv.busy_iff.2 (.inr hne)
  refine ⟨hbusy, by simp [State.ready, hbusy], ?_⟩
  by_contra hr
  obtain ⟨-, -, -, -, -, hnone⟩ := hinv.in_reset (by simpa using hr)
  exact hne hnone

/-! ### The statements -/

/-- Settles O12: both forms of presenting a word decode it before anything else. -/
theorem reservedRequestFaults : Obligations.ReservedRequestFaults := by
  intro s w rest r hm hr hd
  refine ⟨(s.afterMove rest).raise (.reservedRequest w), ?_, rfl⟩
  rcases hm with hm | hm
  · simp [step, turn_request hm hr, hd]
  · rw [step_requestStepwise_word hm hr, State.acceptWord, hd]

/-- Settles O26: the configured check is the first of every request but INITIALIZE. -/
theorem notConfiguredFaults : Obligations.NotConfiguredFaults :=
  fun _ _ hi hr hp => exec_takes_fault hr (checkOf_of_unconfigured hi hp)

/-- Settles O27: a backlight request takes the first failure of its reading of D, C and B; any other request raises another
fault, or none, and then its actions keep the fault that was there. -/
theorem unwrittenShadowFaults : Obligations.UnwrittenShadowFaults := by
  intro s i hr hp
  refine ⟨fun hi => ?_, fun hoff hon t w e h hfault => ?_⟩
  · have hcheck := checkOf_backlight_of_configured hi hp
    refine ⟨fun hd => exec_takes_fault hr ?_, fun hd hc => exec_takes_fault hr ?_,
      fun hd hc hb => exec_takes_fault hr ?_⟩
    · simp [hcheck, displayShadowCheck, hd]
    · simp [hcheck, displayShadowCheck, hd, hc]
    · simp [hcheck, displayShadowCheck, hd, hc, hb]
  · rw [exec_eq_serve] at h
    rcases serve_cases h with ⟨-, rfl⟩ | ⟨-, f, hc, rfl⟩ | ⟨-, -, rfl⟩
    · rfl
    · rw [raise_fault] at hfault
      exact absurd (hc.trans hfault) (checkOf_ne_unwrittenShadow hoff hon hp w e)
    · obtain ⟨-, hkept, -⟩ := performAll_keeps (s.accept i) (actionsOf i s)
      exact hkept.symm

/-- Settles O29: held words leave the block to its own transition, and a move behind them finds it as it is. -/
theorem faultedBlockIsQuiescent : Obligations.FaultedBlockIsQuiescent := by
  intro s f words rest hf hbusy hrst hw
  have hr : s.ready = false := by simp [State.ready, hbusy]
  have hpass : (s.afterMove (words ++ rest)).passTurn = .moved (s.afterMove (words ++ rest)) :=
    passTurn_of_fault hf hrst
  refine ⟨fun hhost => ?_, fun hhost => ?_, fun hhost => ?_⟩
  · rw [step, turn_of_words_held hr (hhost ▸ hw), ownTurn_of_fault hf hrst]
  · simp [step, State.turn, comingMoves_behind_words hr rfl hw hhost, hpass]
  · simp [step, State.turn, comingMoves_behind_words hr rfl hw hhost, hrst, hpass]

/-- Settles O30: of the cases of a step, a faulted block has the reset and the transition that changes nothing. -/
theorem onlyResetLeavesFault : Obligations.OnlyResetLeavesFault := by
  intro s t f hinv hf h
  obtain ⟨hbusy, hr, hrst⟩ := hinv.busy_of_fault hf
  rcases step_cases h with ⟨rest, hm, -⟩ | ⟨rest, -, hreset, -⟩ | ⟨w, rest, i, -, hready, -⟩ |
    ⟨w, rest, r, -, hready, -⟩ | ⟨w, rest, -, hready, -⟩ | ⟨rest, -, hown⟩
  · exact .inl ⟨rest, hm⟩
  · simp [hrst] at hreset
  · simp [hr] at hready
  · simp [hr] at hready
  · simp [hr] at hready
  · rcases hown with ⟨-, rfl⟩ | ⟨-, hnone, -⟩ | ⟨-, hnone, -⟩
    · exact .inr ⟨hf, rfl, rfl, hbusy⟩
    · simp [hf] at hnone
    · simp [hf] at hnone

/-- Settles O10: rounding up by adding one less than the divisor. -/
theorem delayTicksAreCeiling : Obligations.DelayTicksAreCeiling := by
  intro d n
  unfold delayTicks
  omega

/-- Settles O11: the step of a presented word, where the word decodes. -/
theorem stepRunsDecodedRequest : Obligations.StepRunsDecodedRequest := by
  intro s w rest i hm hr hd
  simp [step, turn_request hm hr, hd]

/-- Settles O15: with no move of the host the block makes its own transition, which is idle. -/
theorem idleBlockHolds : Obligations.IdleBlockHolds := by
  intro s hseq hf hr hm
  have hown : s.ownTurn = .moved { s with done := false } := by
    simp [State.ownTurn, hr, hf, hseq]
  rw [step, turn_of_no_move hm, hown]

/-- Settles O28: behind configured lines BEGIN checks that there is a line. -/
theorem badGeometryFaults : Obligations.BadGeometryFaults :=
  fun _ _ _ hr hp => exec_takes_fault hr (firstFault_of_configured _ hp _)

end Sys2Proof.Machine
end

section
/-! SUPPORT. Reset and the timing of the slots and of BEGIN (rules R190, R194, R196, R197, R198): O32, O39, O40 and O41. -/

namespace Sys2Proof.Machine

/-! ### The hold of E (rule R194) -/

/-- Each frame with enable high is held for a delay of `tEn`, and then the same frame follows with enable low. -/
def pulsesHeld (tEn : Nat) (es : List Event) : Prop :=
  ∀ before after f, es = before ++ .frame f :: after → f.getLsbD 3 = true →
    ∃ more, after = .delay tEn :: .frame (f &&& 0xF7) :: more

theorem pulsesHeld_of_no_frame_high {tEn : Nat} {es : List Event}
    (h : ∀ f, .frame f ∈ es → f.getLsbD 3 = false) : pulsesHeld tEn es := by
  rintro before after f rfl hf
  rw [h f (List.mem_append_right before (List.mem_cons_self ..))] at hf
  cases hf

/-- Behind events whose own pulses are held, what follows decides: no pulse of theirs reaches into it. -/
theorem pulsesHeld_append_iff {tEn : Nat} {es : List Event} (h : pulsesHeld tEn es) (rest : List Event) :
    pulsesHeld tEn (es ++ rest) ↔ pulsesHeld tEn rest := by
  constructor
  · rintro hall before after f rfl
    exact hall (es ++ before) after f (List.append_assoc ..).symm
  · intro hrest before after f he hf
    rcases List.append_eq_append_iff.1 he with ⟨l, -, hr⟩ | ⟨l, hes, hl⟩
    · exact hrest l after f hr hf
    · cases l with
      | nil => exact hrest [] after f hl.symm hf
      | cons e l =>
        obtain ⟨rfl, rfl⟩ := List.cons.inj hl
        obtain ⟨more, rfl⟩ := h before l f hes hf
        exact ⟨more ++ rest, rfl⟩

theorem pulsesHeld_done (tEn : Nat) (n : Byte) : pulsesHeld tEn [.done n] :=
  pulsesHeld_of_no_frame_high (by simp)

/-- A slot's one pulse is held (rules R85, R131). -/
theorem pulsesHeld_slotEvents (p : Params) (bl rs : Bit) (nib : Nibble) :
    pulsesHeld p.tEn (slotEvents p bl rs nib) := by
  have htail : pulsesHeld p.tEn [.delay p.tEn, .frame (assembleFrame nib rs bl 0)] :=
    pulsesHeld_of_no_frame_high fun f hf => by
      obtain rfl : f = assembleFrame nib rs bl 0 := by simpa using hf
      exact assembleFrame_en ..
  intro before after f he hf
  cases before with
  | nil =>
    obtain ⟨hframe, rfl⟩ := List.cons.inj he
    obtain rfl := Event.frame.inj hframe
    exact ⟨[], by rw [← enableLow_assembleFrame]; rfl⟩
  | cons e before => exact htail before after f (List.cons.inj he).2 hf

theorem pulsesHeld_transmissionEvents (p : Params) (bl : Bit) (value : Byte) (m : Mode) :
    pulsesHeld p.tEn (transmissionEvents p bl value m) := by
  have hslots (nibs : List Nibble) : pulsesHeld p.tEn (nibs.flatMap (slotEvents p bl (registerSelect m))) := by
    induction nibs with
    | nil => exact pulsesHeld_of_no_frame_high (by simp)
    | cons nib nibs ih => exact (pulsesHeld_append_iff (pulsesHeld_slotEvents p bl _ nib) _).2 ih
  exact (pulsesHeld_append_iff (hslots _) _).2 (pulsesHeld_of_no_frame_high (by simp))

/-- A transmission's actions emit its slots and its settle delay (rule R131). -/
theorem events_transmitActions (p : Params) (bl : Bit) (value : Byte) (m : Mode) :
    (transmitActions p bl value m).flatMap Action.events = transmissionEvents p bl value m := by
  have hslot : (fun nib => (slotActions p.tEn bl (registerSelect m) nib).flatMap Action.events) =
      slotEvents p bl (registerSelect m) := by
    funext nib
    rw [slotActions, enableLow_assembleFrame]
    rfl
  rw [transmitActions, List.flatMap_append, List.flatMap_assoc, hslot]
  rfl

/-- Behind a transmission the rest of a list of actions decides. -/
theorem pulsesHeld_transmit_append (p : Params) (bl : Bit) (value : Byte) (m : Mode) (as : List Action) :
    pulsesHeld p.tEn ((transmitActions p bl value m ++ as).flatMap Action.events) ↔
      pulsesHeld p.tEn (as.flatMap Action.events) := by
  rw [List.flatMap_append, events_transmitActions]
  exact pulsesHeld_append_iff (pulsesHeld_transmissionEvents p bl value m) _

theorem pulsesHeld_set_cons (tEn : Nat) (w : Write) (as : List Action) :
    pulsesHeld tEn ((Action.set w :: as).flatMap Action.events) ↔ pulsesHeld tEn (as.flatMap Action.events) :=
  Iff.rfl

theorem pulsesHeld_wait_cons (tEn d : Nat) (as : List Action) :
    pulsesHeld tEn ((Action.wait d :: as).flatMap Action.events) ↔ pulsesHeld tEn (as.flatMap Action.events) :=
  pulsesHeld_append_iff (es := [.delay d]) (pulsesHeld_of_no_frame_high (by simp)) _

theorem pulsesHeld_waits_append (tEn n d : Nat) (as : List Action) :
    pulsesHeld tEn ((List.replicate n (Action.wait d) ++ as).flatMap Action.events) ↔
      pulsesHeld tEn (as.flatMap Action.events) := by
  rw [List.flatMap_append, List.flatMap_replicate, Action.events, List.flatten_replicate_singleton]
  exact pulsesHeld_append_iff (pulsesHeld_of_no_frame_high (by simp)) _

/-- A transmission and a `Done`, the end of every request's list but INITIALIZE's. -/
theorem pulsesHeld_transmit_done {p : Params} {bl : Bit} {value : Byte} {m : Mode} {n : Byte} :
    pulsesHeld p.tEn ((transmitActions p bl value m ++ [Action.done n]).flatMap Action.events) :=
  (pulsesHeld_transmit_append p bl value m _).2 (pulsesHeld_done p.tEn n)

theorem pulsesHeld_beginLcdActions (cols lines : Byte) (font : Font) (s : State) :
    pulsesHeld s.cfg.tEn ((beginLcdActions cols lines font s).flatMap Action.events) := by
  simp only [beginLcdActions, powerOnWaitActions, bringUpActions, setupActions, List.append_assoc, List.cons_append,
    List.nil_append, pulsesHeld_set_cons, pulsesHeld_wait_cons, pulsesHeld_waits_append, pulsesHeld_transmit_append]
  exact pulsesHeld_done s.cfg.tEn 0

theorem pulsesHeld_backlightActions (level : Bit) (s : State) :
    pulsesHeld s.cfg.tEn ((backlightActions level s).flatMap Action.events) := by
  unfold backlightActions
  split
  · exact (pulsesHeld_set_cons ..).2 (pulsesHeld_transmit_done)
  · exact pulsesHeld_of_no_frame_high (by simp)

/-- INITIALIZE's one frame has enable low, and the other requests send frames in transmissions only. -/
theorem pulsesHeld_actionsOf (i : Instr) (s : State) :
    pulsesHeld s.cfg.tEn ((actionsOf i s).flatMap Action.events) := by
  cases i with
  | initialise =>
    exact pulsesHeld_of_no_frame_high (by simp [actionsOf, initialiseActions, Action.events])
  | beginLcd cols lines font => exact pulsesHeld_beginLcdActions cols lines font s
  | initNibble value => exact pulsesHeld_transmit_done
  | command value => exact pulsesHeld_transmit_done
  | writeChar value => exact pulsesHeld_transmit_done
  | backlightOff => exact pulsesHeld_backlightActions 0 s
  | backlightOn => exact pulsesHeld_backlightActions 1 s

/-! ### The waits of BEGIN (rules R196, R197, R198) -/

/-- The events that BEGIN adds to the run. -/
theorem exec_beginLcd_trace {s t : State} {cols lines : Byte} {font : Font} (hr : s.ready = true)
    (hp : s.pinsCfg = true) (hne : lines ≠ 0) (h : exec (.beginLcd cols lines font) s = .next t) :
    t.trace = s.trace ++
      beginEvents s.cfg s.bl (functionSetByte (lineMode lines) (resolvedFont font lines)) ++ [.done 0] := by
  rw [exec_eq_performAll hr ((beginLcdCheck_eq_none_iff cols lines font s).2 ⟨hp, hne⟩), actionsOf,
    performAll_beginLcd] at h
  obtain rfl := Host.Outcome.next.inj h
  rfl

/-- BEGIN's steps 1 to 5 are the power-on wait and the bring-up nibbles, each with its wait (rule R101). -/
theorem beginEvents_bringUp (p : Params) (bl : Bit) (fset : Byte) :
    ∃ more, beginEvents p bl fset = List.replicate 200 (.delay 1000)
      ++ nibbleEvents p bl 3 ++ [.delay p.tInit1] ++ nibbleEvents p bl 3 ++ [.delay p.tInit2]
      ++ nibbleEvents p bl 3 ++ [.delay p.tInit3] ++ nibbleEvents p bl 2 ++ [.delay p.tInit4] ++ more :=
  ⟨byteEvents p bl 0 fset ++ byteEvents p bl 0 0x08 ++ byteEvents p bl 0 0x01 ++ [.delay p.tClear]
    ++ byteEvents p bl 0 0x06 ++ byteEvents p bl 0 0x0C, by simp only [beginEvents, List.append_assoc]⟩

/-- BEGIN's step 8 is CLEAR-DISPLAY and its wait (rule R101). -/
theorem beginEvents_clear (p : Params) (bl : Bit) (fset : Byte) :
    ∃ before after, beginEvents p bl fset = before ++ byteEvents p bl 0 0x01 ++ [.delay p.tClear] ++ after :=
  ⟨_, _, List.append_assoc ..⟩

theorem leastMicroseconds_delays (n d : Nat) : leastMicroseconds (List.replicate n (.delay d)) = n * d :=
  congrArg (fun lengths => lengths.2.2) (lengthsOf_delays n d)

/-! ### The statements -/

/-- Settles O39: an emitted list is empty or the request's, whose pulses are held. -/
theorem enablePulseHeld : Obligations.EnablePulseHeld := by
  intro s t i hlegal h
  obtain ⟨-, -, -, -, hen, -⟩ := hlegal
  obtain ⟨es, htrace, hheld⟩ : ∃ es, t.trace = s.trace ++ es ∧ pulsesHeld s.cfg.tEn es := by
    rcases exec_trace h with htrace | htrace
    · exact ⟨[], by simpa using htrace, pulsesHeld_of_no_frame_high (by simp)⟩
    · exact ⟨_, htrace, pulsesHeld_actionsOf i s⟩
  refine ⟨es, htrace, fun before after f he hf => ?_⟩
  obtain ⟨more, hafter⟩ := hheld before after f he hf
  exact ⟨more, hafter, hen⟩

/-- Settles O40: BEGIN's events start with the power-on wait and the bring-up nibbles. -/
theorem bringUpSpacing : Obligations.BringUpSpacing := by
  intro s t cols lines font hlegal hr hp hne h
  obtain ⟨h1, h2, h3, h4, -, -⟩ := hlegal
  obtain ⟨more, hevents⟩ :=
    beginEvents_bringUp s.cfg s.bl (functionSetByte (lineMode lines) (resolvedFont font lines))
  refine ⟨_, _, _, _, more ++ [.done 0], ?_, rfl, rfl, rfl, rfl, h1, h2, h3, h4, ?_⟩
  · rw [exec_beginLcd_trace hr hp hne h, hevents]
    simp only [List.append_assoc]
  · rw [leastMicroseconds_delays]
    decide

/-- Settles O41: BEGIN's events hold the clear and its wait, and a COMMAND's events are its transmission (O19). -/
theorem clearWait : Obligations.ClearWait := by
  intro s t cols lines font hlegal hr hp
  obtain ⟨-, -, -, -, -, hclear⟩ := hlegal
  refine ⟨fun hne h => ?_, fun h => ?_⟩
  · obtain ⟨before, after, hevents⟩ :=
      beginEvents_clear s.cfg s.bl (functionSetByte (lineMode lines) (resolvedFont font lines))
    refine ⟨before, _, after ++ [.done 0], ?_, rfl, hclear⟩
    rw [exec_beginLcd_trace hr hp hne h, hevents]
    simp only [List.append_assoc]
  · rw [commandCompletes s 0x01 hr hp] at h
    obtain rfl := Host.Outcome.next.inj h
    rfl

/-- Settles O32: a block in reset is not ready, so held words leave it to its own transition, which changes nothing, and the
move behind them comes first. -/
theorem noRequestInReset : Obligations.NoRequestInReset := by
  intro s words rest hrst hw
  have hr : s.ready = false := by simp [State.ready, hrst]
  have hown : s.ownTurn = .moved s := if_pos hrst
  refine ⟨fun hhost => ?_, fun hhost => ?_⟩
  · rw [step, turn_of_words_held hr (hhost ▸ hw), hown]
  · simp only [step, State.turn, comingMoves_behind_words hr rfl hw hhost, if_pos hrst]
    rfl

end Sys2Proof.Machine
end
